-- ==== Sys2Proof/Word.lean ====
section
/-! DEFINITION. The word types of the core (00_scope.md R12 to R14). -/

namespace Sys2Proof

/-- A register, memory cell or timer: 8 bits (10_state.md R31, R41, R48). -/
abbrev Byte := BitVec 8

/-- An instruction word, the PC, I or a stack entry: 16 bits (10_state.md R35, R39, R40). -/
abbrev Word := BitVec 16

/-- The address operand `nnn`: 12 bits (00_scope.md R13). -/
abbrev Addr := BitVec 12

/-- The nibble operand `n`, or an ignored nibble: 4 bits (00_scope.md R13). -/
abbrev Nibble := BitVec 4

/-- The number of a general register, 0 to 15 (10_state.md R31). -/
abbrev Reg := Fin 16

/-- The number of a key, 0 to 15 (10_state.md R42). -/
abbrev Key := Fin 16

/-- A column of the framebuffer, 0 to 63 (10_state.md R43). -/
abbrev Col := Fin 64

/-- A row of the framebuffer, 0 to 31 (10_state.md R43). -/
abbrev Row := Fin 32

end Sys2Proof
end

