-- ==== Sys2Proof/Syntax.lean ====
section
/-! DEFINITION. The instructions: one constructor per row of spec/opcode_table.json (30_encoding.md R116).

Every operand field of 00_scope.md R13 is an argument, and so are the bits a handler ignores (R111), named `ign`,
and the whole word of a NOP: an instruction keeps every bit of its word, because a fault records the whole word
(60_exceptions.md R300). No meaning depends on an ignored bit in any other way (log 7). -/

namespace Sys2Proof

inductive Instr where
  /-- 0..0, R130: clear the display. -/
  | cls (ign : Byte)
  /-- 0..E, R131: return from subroutine. -/
  | ret (ign : Byte)
  /-- 1nnn, R132: jump. -/
  | jp (nnn : Addr)
  /-- 2nnn, R133: call subroutine. -/
  | call (nnn : Addr)
  /-- 3xkk, R134: skip if V[x] = kk. -/
  | seImm (x : Reg) (kk : Byte)
  /-- 4xkk, R135: skip if V[x] ≠ kk. -/
  | sneImm (x : Reg) (kk : Byte)
  /-- 5xy., R136: skip if V[x] = V[y]. -/
  | seReg (x y : Reg) (ign : Nibble)
  /-- 6xkk, R160: load immediate. -/
  | ldImm (x : Reg) (kk : Byte)
  /-- 7xkk, R161: add immediate. -/
  | addImm (x : Reg) (kk : Byte)
  /-- 8xy0, R162: register copy. -/
  | ldReg (x y : Reg)
  /-- 8xy1, R163: bitwise OR. -/
  | orReg (x y : Reg)
  /-- 8xy2, R164: bitwise AND. -/
  | andReg (x y : Reg)
  /-- 8xy3, R165: bitwise XOR. -/
  | xorReg (x y : Reg)
  /-- 8xy4, R166: add with carry. -/
  | addReg (x y : Reg)
  /-- 8xy5, R167: V[x] - V[y] with not-borrow. -/
  | subReg (x y : Reg)
  /-- 8x.6, R169: logical shift right. -/
  | shr (x : Reg) (ign : Nibble)
  /-- 8xy7, R168: V[y] - V[x] with not-borrow. -/
  | subnReg (x y : Reg)
  /-- 8x.E, R170: logical shift left. -/
  | shl (x : Reg) (ign : Nibble)
  /-- 9xy., R137: skip if V[x] ≠ V[y]. -/
  | sneReg (x y : Reg) (ign : Nibble)
  /-- Annn, R200: set the index register. -/
  | ldI (nnn : Addr)
  /-- Bnnn, R138: jump to nnn + V0. -/
  | jpV0 (nnn : Addr)
  /-- Cxkk, R231: random byte masked by kk. -/
  | rnd (x : Reg) (kk : Byte)
  /-- Dxyn, R270: draw a sprite of n rows. -/
  | drw (x y : Reg) (n : Nibble)
  /-- Ex.E, R240: skip if the key in V[x] is held. -/
  | skp (x : Reg) (ign : Nibble)
  /-- Ex.1, R241: skip if the key in V[x] is not held. -/
  | sknp (x : Reg) (ign : Nibble)
  /-- Fx07, R242: read the delay timer. -/
  | ldVxDt (x : Reg)
  /-- Fx0A, R245: wait for a key. -/
  | ldVxK (x : Reg)
  /-- Fx15, R243: set the delay timer. -/
  | ldDtVx (x : Reg)
  /-- Fx18, R244: set the sound timer. -/
  | ldStVx (x : Reg)
  /-- Fx1E, R201: add V[x] to I. -/
  | addI (x : Reg)
  /-- Fx29, R202: point I at a font glyph. -/
  | ldF (x : Reg)
  /-- Fx33, R203: store the decimal digits of V[x]. -/
  | ldB (x : Reg)
  /-- Fx55, R204: block store of V0..V[x]. -/
  | storeRegs (x : Reg)
  /-- Fx65, R205: block load of V0..V[x]. -/
  | loadRegs (x : Reg)
  /-- Any other word, R112: no effect. -/
  | nop (w : Word)
  deriving DecidableEq, Repr

end Sys2Proof
end

