-- ==== Sys2Proof/Decode.lean ====
section
/-! DEFINITION. Decoding (30_encoding.md R100 to R115), total on words and on byte lists, and the encoder (R116). -/

namespace Sys2Proof

/-! ## Fields of a word (00_scope.md R13) -/

/-- The family, `w[15:12]`. -/
def fieldFamily (w : Word) : Nibble := w.extractLsb' 12 4

/-- `x = w[11:8]`. -/
def fieldX (w : Word) : Reg := (w.extractLsb' 8 4).toFin

/-- `y = w[7:4]`. -/
def fieldY (w : Word) : Reg := (w.extractLsb' 4 4).toFin

/-- `w[7:4]` as bits: what 8x.6, 8x.E, Ex.E and Ex.1 ignore. -/
def fieldMid (w : Word) : Nibble := w.extractLsb' 4 4

/-- `n = w[3:0]`, also the selector of families 0, 8 and E (R104). -/
def fieldN (w : Word) : Nibble := w.extractLsb' 0 4

/-- `kk = w[7:0]`, also the selector of family F (R104). -/
def fieldKK (w : Word) : Byte := w.extractLsb' 0 8

/-- `nnn = w[11:0]`. -/
def fieldNNN (w : Word) : Addr := w.extractLsb' 0 12

/-- `w[11:4]`: what CLS and RET ignore (R111). -/
def fieldOuter (w : Word) : Byte := w.extractLsb' 4 8

/-! ## Dispatch (R104) -/

/-- Table0: family 0 selects on the low nibble (R107). -/
def decodeFamily0 (w : Word) : Instr :=
  match fieldN w with
  | 0x0#4 => .cls (fieldOuter w)
  | 0xE#4 => .ret (fieldOuter w)
  | _ => .nop w

/-- Table8: family 8 selects on the low nibble (R108). -/
def decodeFamily8 (w : Word) : Instr :=
  match fieldN w with
  | 0x0#4 => .ldReg (fieldX w) (fieldY w)
  | 0x1#4 => .orReg (fieldX w) (fieldY w)
  | 0x2#4 => .andReg (fieldX w) (fieldY w)
  | 0x3#4 => .xorReg (fieldX w) (fieldY w)
  | 0x4#4 => .addReg (fieldX w) (fieldY w)
  | 0x5#4 => .subReg (fieldX w) (fieldY w)
  | 0x6#4 => .shr (fieldX w) (fieldMid w)
  | 0x7#4 => .subnReg (fieldX w) (fieldY w)
  | 0xE#4 => .shl (fieldX w) (fieldMid w)
  | _ => .nop w

/-- TableE: family E selects on the low nibble (R109). -/
def decodeFamilyE (w : Word) : Instr :=
  match fieldN w with
  | 0xE#4 => .skp (fieldX w) (fieldMid w)
  | 0x1#4 => .sknp (fieldX w) (fieldMid w)
  | _ => .nop w

/-- TableF: family F selects on the low byte (R110). -/
def decodeFamilyF (w : Word) : Instr :=
  match fieldKK w with
  | 0x07#8 => .ldVxDt (fieldX w)
  | 0x0A#8 => .ldVxK (fieldX w)
  | 0x15#8 => .ldDtVx (fieldX w)
  | 0x18#8 => .ldStVx (fieldX w)
  | 0x1E#8 => .addI (fieldX w)
  | 0x29#8 => .ldF (fieldX w)
  | 0x33#8 => .ldB (fieldX w)
  | 0x55#8 => .storeRegs (fieldX w)
  | 0x65#8 => .loadRegs (fieldX w)
  | _ => .nop w

/-- Dispatch on the family (R104, R105). Every word selects exactly one handler (R115). -/
def decodeWord (w : Word) : Instr :=
  match fieldFamily w with
  | 0x0#4 => decodeFamily0 w
  | 0x1#4 => .jp (fieldNNN w)
  | 0x2#4 => .call (fieldNNN w)
  | 0x3#4 => .seImm (fieldX w) (fieldKK w)
  | 0x4#4 => .sneImm (fieldX w) (fieldKK w)
  | 0x5#4 => .seReg (fieldX w) (fieldY w) (fieldN w)
  | 0x6#4 => .ldImm (fieldX w) (fieldKK w)
  | 0x7#4 => .addImm (fieldX w) (fieldKK w)
  | 0x8#4 => decodeFamily8 w
  | 0x9#4 => .sneReg (fieldX w) (fieldY w) (fieldN w)
  | 0xA#4 => .ldI (fieldNNN w)
  | 0xB#4 => .jpV0 (fieldNNN w)
  | 0xC#4 => .rnd (fieldX w) (fieldKK w)
  | 0xD#4 => .drw (fieldX w) (fieldY w) (fieldN w)
  | 0xE#4 => decodeFamilyE w
  | _ => decodeFamilyF w

/-- The word of two bytes, the first the high byte (20_memory.md R75). -/
def wordOfBytes (hi lo : Byte) : Word := hi ++ lo

/-- The high byte of a word, which lies at the lower address (20_memory.md R75). -/
def highByte (w : Word) : Byte := w.extractLsb' 8 8

/-- The low byte of a word. -/
def lowByte (w : Word) : Byte := w.extractLsb' 0 8

/-- Why a list of bytes holds no instruction. -/
inductive DecodeError where
  /-- Fewer than two bytes: an instruction always takes two (R100). -/
  | truncated
  deriving DecidableEq, Repr

/-- Decode the instruction at the front of a list of bytes and give the rest of the list. A decoder always takes
exactly two bytes (R100); no word is refused (R114). -/
def decode : List Byte → Except DecodeError (Instr × List Byte)
  | hi :: lo :: rest => .ok (decodeWord (wordOfBytes hi lo), rest)
  | _ => .error .truncated

/-! ## The encoder (R116) -/

/-- family, x, kk. -/
def formXK (family : Nibble) (x : Reg) (kk : Byte) : Word :=
  family ++ (BitVec.ofFin x : Nibble) ++ kk

/-- family, x, a nibble, a nibble. -/
def formXNN (family : Nibble) (x : Reg) (mid low : Nibble) : Word :=
  family ++ (BitVec.ofFin x : Nibble) ++ mid ++ low

/-- family, x, y, a nibble. -/
def formXYN (family : Nibble) (x y : Reg) (low : Nibble) : Word :=
  formXNN family x (BitVec.ofFin y) low

/-- family, nnn. -/
def formA (family : Nibble) (nnn : Addr) : Word := family ++ nnn

/-- family 0, bits 11:4, selector. -/
def formZ (outer : Byte) (selector : Nibble) : Word := (0x0#4 ++ outer) ++ selector

/-- The word of an instruction (R116). With the ignored bits 0 it is the pattern of R116 with every ignored nibble
zero; the usual 00E0, 00EE, Ex9E and ExA1 (R121) carry 0E, 0E, 9 and A in them (log 7). -/
def encode : Instr → Word
  | .cls ign => formZ ign 0x0
  | .ret ign => formZ ign 0xE
  | .jp nnn => formA 0x1 nnn
  | .call nnn => formA 0x2 nnn
  | .seImm x kk => formXK 0x3 x kk
  | .sneImm x kk => formXK 0x4 x kk
  | .seReg x y ign => formXYN 0x5 x y ign
  | .ldImm x kk => formXK 0x6 x kk
  | .addImm x kk => formXK 0x7 x kk
  | .ldReg x y => formXYN 0x8 x y 0x0
  | .orReg x y => formXYN 0x8 x y 0x1
  | .andReg x y => formXYN 0x8 x y 0x2
  | .xorReg x y => formXYN 0x8 x y 0x3
  | .addReg x y => formXYN 0x8 x y 0x4
  | .subReg x y => formXYN 0x8 x y 0x5
  | .shr x ign => formXNN 0x8 x ign 0x6
  | .subnReg x y => formXYN 0x8 x y 0x7
  | .shl x ign => formXNN 0x8 x ign 0xE
  | .sneReg x y ign => formXYN 0x9 x y ign
  | .ldI nnn => formA 0xA nnn
  | .jpV0 nnn => formA 0xB nnn
  | .rnd x kk => formXK 0xC x kk
  | .drw x y n => formXYN 0xD x y n
  | .skp x ign => formXNN 0xE x ign 0xE
  | .sknp x ign => formXNN 0xE x ign 0x1
  | .ldVxDt x => formXK 0xF x 0x07
  | .ldVxK x => formXK 0xF x 0x0A
  | .ldDtVx x => formXK 0xF x 0x15
  | .ldStVx x => formXK 0xF x 0x18
  | .addI x => formXK 0xF x 0x1E
  | .ldF x => formXK 0xF x 0x29
  | .ldB x => formXK 0xF x 0x33
  | .storeRegs x => formXK 0xF x 0x55
  | .loadRegs x => formXK 0xF x 0x65
  | .nop w => w

/-- The mask of an instruction's row in the opcode map (R116). The default row has none. -/
def Instr.rowMask : Instr → Word
  | .cls _ | .ret _ => 0xF00F
  | .jp _ | .call _ | .ldI _ | .jpV0 _ => 0xF000
  | .seImm _ _ | .sneImm _ _ | .ldImm _ _ | .addImm _ _ | .rnd _ _ => 0xF000
  | .seReg _ _ _ | .sneReg _ _ _ | .drw _ _ _ => 0xF000
  | .ldReg _ _ | .orReg _ _ | .andReg _ _ | .xorReg _ _ => 0xF00F
  | .addReg _ _ | .subReg _ _ | .subnReg _ _ => 0xF00F
  | .shr _ _ | .shl _ _ | .skp _ _ | .sknp _ _ => 0xF00F
  | .ldVxDt _ | .ldVxK _ | .ldDtVx _ | .ldStVx _ | .addI _ | .ldF _ | .ldB _ | .storeRegs _ | .loadRegs _ => 0xF0FF
  | .nop _ => 0x0000

/-- The match value of an instruction's row in the opcode map (R116). The default row has none. -/
def Instr.rowMatch : Instr → Word
  | .cls _ => 0x0000
  | .ret _ => 0x000E
  | .jp _ => 0x1000
  | .call _ => 0x2000
  | .seImm _ _ => 0x3000
  | .sneImm _ _ => 0x4000
  | .seReg _ _ _ => 0x5000
  | .ldImm _ _ => 0x6000
  | .addImm _ _ => 0x7000
  | .ldReg _ _ => 0x8000
  | .orReg _ _ => 0x8001
  | .andReg _ _ => 0x8002
  | .xorReg _ _ => 0x8003
  | .addReg _ _ => 0x8004
  | .subReg _ _ => 0x8005
  | .shr _ _ => 0x8006
  | .subnReg _ _ => 0x8007
  | .shl _ _ => 0x800E
  | .sneReg _ _ _ => 0x9000
  | .ldI _ => 0xA000
  | .jpV0 _ => 0xB000
  | .rnd _ _ => 0xC000
  | .drw _ _ _ => 0xD000
  | .skp _ _ => 0xE00E
  | .sknp _ _ => 0xE001
  | .ldVxDt _ => 0xF007
  | .ldVxK _ => 0xF00A
  | .ldDtVx _ => 0xF015
  | .ldStVx _ => 0xF018
  | .addI _ => 0xF01E
  | .ldF _ => 0xF029
  | .ldB _ => 0xF033
  | .storeRegs _ => 0xF055
  | .loadRegs _ => 0xF065
  | .nop _ => 0x0000

/-- Whether a word is in the NOP space, as the table of R114 lists it. -/
def isNopWord (w : Word) : Bool :=
  if fieldFamily w = 0x0 then fieldN w ≠ 0x0 && fieldN w ≠ 0xE
  else if fieldFamily w = 0x8 then (0x8 ≤ fieldN w && fieldN w ≤ 0xD) || fieldN w = 0xF
  else if fieldFamily w = 0xE then fieldN w ≠ 0x1 && fieldN w ≠ 0xE
  else if fieldFamily w = 0xF then
    !([0x07, 0x0A, 0x15, 0x18, 0x1E, 0x29, 0x33, 0x55, 0x65] : List Byte).contains (fieldKK w)
  else false

/-! ## The host's reading of an opcode-table row -/

/-- The bits of an instruction as spec/opcode_table.json numbers them, laid out as memory holds them: one 16-bit
word, its high byte first (20_memory.md R75). Bits from `nbits` up are 0. -/
def tableWord (nbits w : Nat) : Word := BitVec.ofNat 16 (w % 2 ^ nbits)

/-- The instruction the decoder reads from the bytes of a table word. -/
def decodeTableWord (nbits w : Nat) : Option Instr :=
  match decode [highByte (tableWord nbits w), lowByte (tableWord nbits w)] with
  | .ok (i, _) => some i
  | .error _ => none

end Sys2Proof
end

