-- ==== Sys2Proof/Config.lean ====
section
/-! DEFINITION. The parameters the source fixes (00_scope.md R10) and the one free value of the core. -/

namespace Sys2Proof.Config

/-- MEM_SIZE: the core has 4096 bytes of memory (R10, 10_state.md R48). -/
def memSize : Nat := 4096

/-- FONT_BASE: glyph k is at 0x050 + 5k (R10, 10_state.md R44). -/
def fontBase : Nat := 0x050

/-- The font region is 16 glyphs of 5 bytes (R10). -/
def fontSize : Nat := 80

/-- PROGRAM_ORIGIN: where the image goes, and the reset PC (R10). -/
def programOrigin : Nat := 0x200

/-- MAX_IMAGE: the longest image that loads, 4096 - 512 bytes (R10, 70_reset_and_hazards.md R341). -/
def maxImage : Nat := 3584

/-- STACK_DEPTH: the return stack has 16 entries (R10). -/
def stackDepth : Nat := 16

/-- The random byte of the k-th RND executed since the load: a FREE VALUE under no law (43_random.md R230,
93_implementation_defined.md U6, log 1). It has no body, so whatever is proved holds for every sequence of draws. -/
opaque randomByte : Nat → Byte

end Sys2Proof.Config
end

