-- ==== Sys2Proof/Machine/State.lean ====
section
/-! DEFINITION. The architectural state (10_state.md R30), its value after reset (R49), and why a step can stop. -/

namespace Sys2Proof.Machine

/-- FAULT: which fault is latched (10_state.md R45, 60_exceptions.md R300). -/
inductive FaultCode where
  /-- NONE, code 0. -/
  | none
  /-- STACK_OVERFLOW, code 1: a CALL with SP = 16 (R301). -/
  | stackOverflow
  /-- STACK_UNDERFLOW, code 2: a RET with SP = 0 (R302). -/
  | stackUnderflow
  deriving DecidableEq, Repr

/-- The framebuffer: 32 rows of 64 cells, each on or off (10_state.md R43). -/
abbrev Frame := Vector (Vector Bool 64) 32

/-- The architectural state (10_state.md R30), and `draws`, the model's own counter. -/
structure State where
  /-- V0 to VF, the last of which is also the flag register (R31, R32). -/
  v : Vector Byte 16
  /-- PC (R35). -/
  pc : Word
  /-- The index register I (R39). -/
  i : Word
  /-- SP, the number of stack entries in use (R40). -/
  sp : Byte
  /-- The return stack (R40). -/
  stack : Vector Word 16
  /-- DT, the delay timer (R41). -/
  dt : Byte
  /-- ST, the sound timer (R41). -/
  st : Byte
  /-- Memory (R48): the cells that differ from the contents after the load of an empty image, addresses rising. -/
  mem : List Host.Cell
  /-- The keyboard latch, written by the host alone (R42). -/
  keys : Vector Bool 16
  /-- The framebuffer (R43). -/
  fb : Frame
  /-- FAULT of the fault latch (R45). -/
  fault : FaultCode
  /-- FAULT_PC of the fault latch (R45). -/
  faultPc : Word
  /-- FAULT_WORD of the fault latch (R45). -/
  faultWord : Word
  /-- The model's own field (log 1): how many random bytes RND has drawn (43_random.md R230). -/
  draws : Nat
  deriving DecidableEq, Repr

/-- The machine right after reset. A load is the core's only reset (70_reset_and_hazards.md R340); this is the load of
an empty image (R342), base state B of 95_test_vectors.md. Every value is R49's, but for `draws` (log 1). -/
def State.reset : State where
  v := Vector.replicate 16 0
  pc := BitVec.ofNat 16 Config.programOrigin
  i := 0
  sp := 0
  stack := Vector.replicate 16 0
  dt := 0
  st := 0
  mem := []
  keys := Vector.replicate 16 false
  fb := Vector.replicate 32 (Vector.replicate 64 false)
  fault := .none
  faultPc := 0
  faultWord := 0
  draws := 0

/-- Why a step stops with no next state. The faults of the spec are NOT here: their entry is described (60_exceptions.md
R303), so they are next states with the latch written (log 4). -/
inductive Fault where
  /-- Raised by CALL and RET when SP is above 16, a value SP never has (10_state.md R40): the stack entry they would use
  does not exist. SAFE: the model stops, and no state that meets the model's invariant reaches it (log 5). -/
  | noStackEntry
  deriving DecidableEq, Repr

/-- Why a step refuses. -/
inductive Refusal where
  /-- Raised by `exec` alone, for an instruction that has no meaning yet. SAFE. No arm raises it now. -/
  | notModelled (mnemonic : String)
  deriving DecidableEq, Repr

/-- What an instruction or a step answers. -/
abbrev Result := Host.Outcome State Fault Refusal

end Sys2Proof.Machine
end

