-- ==== Sys2Proof/Machine/Memory.lean ====
section
/-! DEFINITION. Memory as a list of cells in one canonical form, and what an unlisted address reads as. -/

namespace Sys2Proof.Machine

/-- FONT: the 16 glyphs of 5 bytes (10_state.md R44), digit 0 first, top row first. -/
def fontBytes : List Byte :=
  [0xF0, 0x90, 0x90, 0x90, 0xF0, 0x20, 0x60, 0x20, 0x20, 0x70] ++
  [0xF0, 0x10, 0xF0, 0x80, 0xF0, 0xF0, 0x10, 0xF0, 0x10, 0xF0] ++
  [0x90, 0x90, 0xF0, 0x10, 0x10, 0xF0, 0x80, 0xF0, 0x10, 0xF0] ++
  [0xF0, 0x80, 0xF0, 0x90, 0xF0, 0xF0, 0x10, 0x20, 0x40, 0x40] ++
  [0xF0, 0x90, 0xF0, 0x90, 0xF0, 0xF0, 0x90, 0xF0, 0x10, 0xF0] ++
  [0xF0, 0x90, 0xF0, 0x90, 0x90, 0xE0, 0x90, 0xE0, 0x90, 0xE0] ++
  [0xF0, 0x80, 0x80, 0x80, 0xF0, 0xE0, 0x90, 0x90, 0x90, 0xE0] ++
  [0xF0, 0x80, 0xF0, 0x80, 0xF0, 0xF0, 0x80, 0xF0, 0x80, 0x80]

/-- What an address that the list does not hold reads as: the contents after the load of an empty image (R49). -/
def initialByte (a : Nat) : Byte :=
  if Config.fontBase ≤ a ∧ a < Config.fontBase + Config.fontSize then fontBytes.getD (a - Config.fontBase) 0 else 0

/-- The byte at an address. -/
def Memory.read (m : List Host.Cell) (a : Nat) : Byte := (m.lookup a).getD (initialByte a)

/-- Put a cell before the first cell of a higher address. -/
def Memory.insert (c : Host.Cell) : List Host.Cell → List Host.Cell
  | [] => [c]
  | d :: m => if c.1 < d.1 then c :: d :: m else d :: Memory.insert c m

/-- The list without the cells of an address. -/
def Memory.erase (m : List Host.Cell) (a : Nat) : List Host.Cell := m.filter fun c => c.1 != a

/-- Store a byte at an address, keeping the canonical form: writing what an unlisted address reads as removes the cell. -/
def Memory.write (m : List Host.Cell) (a : Nat) (b : Byte) : List Host.Cell :=
  if b = initialByte a then Memory.erase m a else Memory.insert (a, b) (Memory.erase m a)

/-- Addresses rise strictly. -/
def Memory.rising : List Host.Cell → Bool
  | [] => true
  | c :: m => m.all (fun d => decide (c.1 < d.1)) && Memory.rising m

/-- The canonical form: addresses rise strictly, each below 4096 (R48), and no cell equals what its address reads as
when unlisted. -/
def Memory.wf (m : List Host.Cell) : Bool :=
  Memory.rising m && m.all fun c => decide (c.1 < Config.memSize) && c.2 != initialByte c.1

end Sys2Proof.Machine
end

