-- ==== Sys2Proof/Machine/Ops.lean ====
section
/-! DEFINITION. The named operations over the state (00_scope.md R15), and taking a fault (60_exceptions.md R303).
Every read and every write of a component goes through one of these. -/

namespace Sys2Proof.Machine

/-! ## Registers -/

/-- `V[r]` (10_state.md R31). -/
def State.reg (s : State) (r : Reg) : Byte := s.v[r.val]

/-- `V[r] <- b`. No register is hardwired (R31). -/
def State.setReg (s : State) (r : Reg) (b : Byte) : State := { s with v := s.v.set r.val b r.isLt }

/-- `PC <- w` (R35). -/
def State.setPc (s : State) (w : Word) : State := { s with pc := w }

/-- `I <- w`, with no mask (R39). -/
def State.setI (s : State) (w : Word) : State := { s with i := w }

/-- `DT <- b` (R41). -/
def State.setDt (s : State) (b : Byte) : State := { s with dt := b }

/-- `ST <- b` (R41). -/
def State.setSt (s : State) (b : Byte) : State := { s with st := b }

/-! ## Memory -/

/-- `MemRead(a, 1)`: the byte at `a mod 4096` (20_memory.md R73). -/
def State.memRead (s : State) (a : Nat) : Byte := Memory.read s.mem (a % Config.memSize)

/-- `MemWrite(a, 1, b)`: store at `a mod 4096` (R73). No address is write-protected (R71, R72). -/
def State.memWrite (s : State) (a : Nat) (b : Byte) : State :=
  { s with mem := Memory.write s.mem (a % Config.memSize) b }

/-! ## The return stack (R40) -/

/-- `Stack[j]`. -/
def State.stackAt (s : State) (j : Fin 16) : Word := s.stack[j.val]

/-- `Stack[SP] <- w`, then `SP <- SP + 1`; none where the stack has no entry SP. -/
def State.push (s : State) (w : Word) : Option State :=
  if h : s.sp.toNat < 16 then some { s with stack := s.stack.set s.sp.toNat w h, sp := s.sp + 1 } else none

/-- `SP <- SP - 1`, then read `Stack[SP]`; none where the stack has no such entry. The entry stays in place
(40_control_flow.md R131). -/
def State.pop (s : State) : Option (Word × State) :=
  if h : (s.sp - 1).toNat < 16 then some (s.stack[(s.sp - 1).toNat], { s with sp := s.sp - 1 }) else none

/-! ## Keyboard latch and framebuffer -/

/-- `Key(k)` (10_state.md R42). -/
def State.key (s : State) (k : Key) : Bool := s.keys[k.val]

/-- The lowest-numbered held key (44_keyboard_timers.md R245). -/
def State.lowestKey (s : State) : Option Key := (List.finRange 16).find? s.key

/-- The cell of a frame at a column and row (R43). -/
def Frame.get (f : Frame) (px : Col) (py : Row) : Bool := f[py.val][px.val]

/-- The frame with one cell written. -/
def Frame.put (f : Frame) (px : Col) (py : Row) (b : Bool) : Frame := f.set py.val (f[py.val].set px.val b px.isLt) py.isLt

/-- The frame with every pixel off. -/
def Frame.blank : Frame := Vector.replicate 32 (Vector.replicate 64 false)

/-- `FB(px, py)`. -/
def State.pixel (s : State) (px : Col) (py : Row) : Bool := Frame.get s.fb px py

/-- The state with another frame. -/
def State.setFrame (s : State) (f : Frame) : State := { s with fb := f }

/-! ## The random byte (43_random.md R230) -/

/-- `RandomByte()`: the free value of this draw (log 1). -/
def State.randomByte (s : State) : Byte := Config.randomByte s.draws

/-- The draw is used up; the next one is another free value. -/
def State.nextDraw (s : State) : State := { s with draws := s.draws + 1 }

/-! ## Control flow shared by families -/

/-- A skip: `PC <- trunc_16(PC + 2)` when the condition holds (40_control_flow.md R139). -/
def State.skipIf (s : State) (c : Bool) : State := if c then s.setPc (s.pc + 2) else s

/-! ## Faults -/

/-- The number of a fault (60_exceptions.md R300). -/
def FaultCode.code : FaultCode → BitVec 2
  | .none => 0
  | .stackOverflow => 1
  | .stackUnderflow => 2

/-- Fault entry (R303), from a handler that has written nothing yet. The state goes back to the start of the cycle,
where the PC is the address A of the instruction (the fetch left it at A + 2), and the latch records the code, A and
the word. Nothing else changes and no handler is entered (R308). The cycle ends without a tick (`State.finishCycle`). -/
def State.raise (s : State) (code : FaultCode) (w : Word) : State :=
  { s with pc := s.pc - 2, fault := code, faultPc := s.pc - 2, faultWord := w }

/-- The latch as a load leaves it (R304, 70_reset_and_hazards.md R340). There is no return from a fault inside the core
(R309): only the placing of a first instruction, which stands for a load, uses this (log 2). -/
def State.clearLatch (s : State) : State := { s with fault := .none, faultPc := 0, faultWord := 0 }

end Sys2Proof.Machine
end

