-- ==== Sys2Proof/Machine/Cycle.lean ====
section
/-! DEFINITION. What a cycle does around its instruction: the fetch, the tick, and how it ends
(70_reset_and_hazards.md R350). -/

namespace Sys2Proof.Machine

/-- The word at PC: the byte at PC is the high byte, the byte at PC + 1 the low byte (20_memory.md R75, R76), each
address modulo 4096 (R73). -/
def State.fetchWord (s : State) : Word := wordOfBytes (s.memRead s.pc.toNat) (s.memRead (s.pc.toNat + 1))

/-- `PC <- trunc_16(A + 2)` (30_encoding.md R103). -/
def State.advancePc (s : State) : State := s.setPc (s.pc + 2)

/-- A timer one lower, floored at zero (R352). -/
def countDown (b : Byte) : Byte := if b = 0 then 0 else b - 1

/-- The timer tick (R352). -/
def State.tick (s : State) : State := (s.setDt (countDown s.dt)).setSt (countDown s.st)

/-- The end of a cycle after its instruction: the tick, unless the instruction faulted (R303, R352). -/
def State.finishCycle (s : State) : State := if s.fault = .none then s.tick else s

/-- The state with the first bytes of an instruction stored where the next fetch reads them, high byte first, and with
the fault latch clear, because a cycle fetches nothing while a fault is latched (60_exceptions.md R304). -/
def State.placeWord (s : State) (w : Word) : State :=
  let t := if s.fault = .none then s else s.clearLatch
  (t.memWrite s.pc.toNat (highByte w)).memWrite (s.pc.toNat + 1) (lowByte w)

end Sys2Proof.Machine
end

