-- ==== Sys2Proof/Machine/Operands.lean ====
section
/-! DEFINITION. The operand forms: how a field or a register value becomes an address, a coordinate, a key or digits
(30_encoding.md R102). -/

namespace Sys2Proof.Machine

/-- `zext_16(nnn)` (00_scope.md R14, 30_encoding.md R102). -/
def zextAddr (nnn : Addr) : Word := nnn.setWidth 16

/-- `zext_16` of a byte (00_scope.md R14). -/
def zextByte (b : Byte) : Word := b.setWidth 16

/-- The address `I + k` before the reduction modulo 4096 that every access makes (20_memory.md R73). -/
def State.indexPlus (s : State) (k : Nat) : Nat := s.i.toNat + k

/-- A key number: the value modulo 16 (10_state.md R42, 44_keyboard_timers.md R240). -/
def keyOf (b : Byte) : Key := Fin.ofNat 16 b.toNat

/-- The column `c` places right of the value's column, modulo 64 (45_display.md R270). -/
def colPlus (b : Byte) (c : Nat) : Col := Fin.ofNat 64 (b.toNat % 64 + c)

/-- The row `r` places below the value's row, modulo 32 (45_display.md R270). -/
def rowPlus (b : Byte) (r : Nat) : Row := Fin.ofNat 32 (b.toNat % 32 + r)

/-- `trunc_16(0x050 + 5 * d)`, with the digit not masked (42_memory_index.md R202). -/
def glyphAddress (d : Byte) : Word := BitVec.ofNat 16 (Config.fontBase + 5 * d.toNat)

/-- The hundreds digit (R203). -/
def hundreds (b : Byte) : Byte := BitVec.ofNat 8 (b.toNat / 100)

/-- The tens digit (R203). -/
def tens (b : Byte) : Byte := BitVec.ofNat 8 (b.toNat / 10 % 10)

/-- The ones digit (R203). -/
def ones (b : Byte) : Byte := BitVec.ofNat 8 (b.toNat % 10)

end Sys2Proof.Machine
end

