-- ==== Sys2Proof/Machine/ControlFlow.lean ====
section
/-! DEFINITION. Control flow (40_control_flow.md). Every meaning runs on the state after the fetch, where the PC is the
instruction's address plus 2 (00_scope.md R16). -/

namespace Sys2Proof.Machine

/-- CLS (R130): every pixel off. -/
def execCls (_ign : Byte) (s : State) : Result := .next (s.setFrame Frame.blank)

/-- RET (R131): pop the return address; with SP = 0 take STACK_UNDERFLOW (60_exceptions.md R302). -/
def execRet (ign : Byte) (s : State) : Result :=
  if s.sp = 0 then .next (s.raise .stackUnderflow (encode (.ret ign)))
  else
    match s.pop with
    | some (w, t) => .next (t.setPc w)
    | none => .fault .noStackEntry

/-- JP nnn (R132). -/
def execJp (nnn : Addr) (s : State) : Result := .next (s.setPc (zextAddr nnn))

/-- CALL nnn (R133): push the advanced PC and jump; with SP = 16 take STACK_OVERFLOW (60_exceptions.md R301). -/
def execCall (nnn : Addr) (s : State) : Result :=
  if s.sp = 16 then .next (s.raise .stackOverflow (encode (.call nnn)))
  else
    match s.push s.pc with
    | some t => .next (t.setPc (zextAddr nnn))
    | none => .fault .noStackEntry

/-- SE Vx, kk (R134). -/
def execSeImm (x : Reg) (kk : Byte) (s : State) : Result := .next (s.skipIf (s.reg x == kk))

/-- SNE Vx, kk (R135). -/
def execSneImm (x : Reg) (kk : Byte) (s : State) : Result := .next (s.skipIf (s.reg x != kk))

/-- SE Vx, Vy (R136). -/
def execSeReg (x y : Reg) (_ign : Nibble) (s : State) : Result := .next (s.skipIf (s.reg x == s.reg y))

/-- SNE Vx, Vy (R137). -/
def execSneReg (x y : Reg) (_ign : Nibble) (s : State) : Result := .next (s.skipIf (s.reg x != s.reg y))

/-- JP V0, nnn (R138): the sum is kept in 16 bits. -/
def execJpV0 (nnn : Addr) (s : State) : Result := .next (s.setPc (zextAddr nnn + zextByte (s.reg 0)))

end Sys2Proof.Machine
end

