-- ==== Sys2Proof/Machine/Flags.lean ====
section
/-! DEFINITION. The flag computations (10_state.md R38) and the order of the two writes (41_register_alu.md R172). -/

namespace Sys2Proof.Machine

/-- VF, register 15 (10_state.md R32). -/
def flagReg : Reg := 15

/-- A flag's byte: 1 or 0. -/
def flagByte (b : Bool) : Byte := if b then 1 else 0

/-- Carry: 1 if the sum exceeds 255 (R166). -/
def carry (a b : Byte) : Byte := flagByte (decide (a.toNat + b.toNat > 255))

/-- Not-borrow of `a - b`: 1 if a >= b (R167, R168). -/
def notBorrow (a b : Byte) : Byte := flagByte (decide (a.toNat ≥ b.toNat))

/-- What a right shift puts out: bit 0 before the shift (R169). -/
def shiftOutRight (a : Byte) : Byte := flagByte (a.getLsbD 0)

/-- What a left shift puts out: bit 7 before the shift (R170). -/
def shiftOutLeft (a : Byte) : Byte := flagByte (a.getLsbD 7)

/-- `V[x] <- result`, then `VF <- flag`: with x = 15 the flag stays (R172). -/
def State.setRegThenFlag (s : State) (x : Reg) (result flag : Byte) : State :=
  (s.setReg x result).setReg flagReg flag

end Sys2Proof.Machine
end

