-- ==== Sys2Proof/Machine/Display.lean ====
section
/-! DEFINITION. The sprite rasteriser (45_display.md). -/

namespace Sys2Proof.Machine

/-- A frame being drawn on, and whether an on pixel has been turned off so far. -/
structure Drawing where
  frame : Frame
  collision : Bool
  deriving DecidableEq, Repr

/-- One sprite bit at a pixel: a 1 toggles the pixel and collides if it was on, a 0 does nothing (R270). -/
def Drawing.drawBit (d : Drawing) (px : Col) (py : Row) (bit : Bool) : Drawing :=
  if bit then ⟨d.frame.put px py (!d.frame.get px py), d.collision || d.frame.get px py⟩ else d

/-- Sprite bit c of a row's byte, the most significant bit leftmost (R270). -/
def spriteBit (b : Byte) (c : Nat) : Bool := b.getLsbD (7 - c)

/-- The first `k` bits of the row byte `b`, left to right, from the column of `vx` on, in screen row `py` (R270). -/
def Drawing.drawRow (d : Drawing) (vx b : Byte) (py : Row) : Nat → Drawing
  | 0 => d
  | k + 1 => (d.drawRow vx b py k).drawBit (colPlus vx k) py (spriteBit b k)

/-- The drawing after the first `k` sprite rows, top to bottom: row r is the byte at I + r (20_memory.md R74), drawn in
the screen row r places below that of `vy` (R270). -/
def State.drawRows (s : State) (vx vy : Byte) : Nat → Drawing
  | 0 => ⟨s.fb, false⟩
  | k + 1 => (s.drawRows vx vy k).drawRow vx (s.memRead (s.indexPlus k)) (rowPlus vy k) 8

/-- DRW Vx, Vy, n (R270): the coordinates are read first, then VF is cleared, then each on pixel turned off sets it. -/
def execDrw (x y : Reg) (n : Nibble) (s : State) : Result :=
  let d := s.drawRows (s.reg x) (s.reg y) n.toNat
  .next ((s.setFrame d.frame).setReg flagReg (flagByte d.collision))

end Sys2Proof.Machine
end

