-- ==== Sys2Proof/Machine/KeyboardTimers.lean ====
section
/-! DEFINITION. Keyboard and timers (44_keyboard_timers.md). The tick of the same cycle comes after (R246). -/

namespace Sys2Proof.Machine

/-- SKP Vx (R240). -/
def execSkp (x : Reg) (_ign : Nibble) (s : State) : Result := .next (s.skipIf (s.key (keyOf (s.reg x))))

/-- SKNP Vx (R241). -/
def execSknp (x : Reg) (_ign : Nibble) (s : State) : Result := .next (s.skipIf (!s.key (keyOf (s.reg x))))

/-- LD Vx, DT (R242). -/
def execLdVxDt (x : Reg) (s : State) : Result := .next (s.setReg x s.dt)

/-- LD DT, Vx (R243). -/
def execLdDtVx (x : Reg) (s : State) : Result := .next (s.setDt (s.reg x))

/-- LD ST, Vx (R244). -/
def execLdStVx (x : Reg) (s : State) : Result := .next (s.setSt (s.reg x))

/-- LD Vx, K (R245): with no key held the PC goes back to this instruction; otherwise the lowest held key is taken. -/
def execLdVxK (x : Reg) (s : State) : Result :=
  match s.lowestKey with
  | none => .next (s.setPc (s.pc - 2))
  | some k => .next (s.setReg x (BitVec.ofNat 8 k.val))

end Sys2Proof.Machine
end

