-- ==== Sys2Proof/Machine/MemoryIndex.lean ====
section
/-! DEFINITION. Memory and the index register (42_memory_index.md). -/

namespace Sys2Proof.Machine

/-- LD I, nnn (R200). -/
def execLdI (nnn : Addr) (s : State) : Result := .next (s.setI (zextAddr nnn))

/-- ADD I, Vx (R201): 16 bits, wrapping, VF left alone. -/
def execAddI (x : Reg) (s : State) : Result := .next (s.setI (s.i + zextByte (s.reg x)))

/-- LD F, Vx (R202). -/
def execLdF (x : Reg) (s : State) : Result := .next (s.setI (glyphAddress (s.reg x)))

/-- LD B, Vx (R203): hundreds, tens and ones at I, I + 1 and I + 2, in that order. -/
def execLdB (x : Reg) (s : State) : Result :=
  .next (((s.memWrite (s.indexPlus 0) (hundreds (s.reg x))).memWrite (s.indexPlus 1) (tens (s.reg x))).memWrite
    (s.indexPlus 2) (ones (s.reg x)))

/-- Store the first `k` registers from I upward, in ascending order (R204). -/
def State.storeFirst (s : State) : Nat → State
  | 0 => s
  | k + 1 => (s.storeFirst k).memWrite (s.indexPlus k) (s.reg (Fin.ofNat 16 k))

/-- LD [I], Vx (R204): V0 to V[x], I left alone. -/
def execStoreRegs (x : Reg) (s : State) : Result := .next (s.storeFirst (x.val + 1))

/-- Load the first `k` registers from I upward, in ascending order (R205). -/
def State.loadFirst (s : State) : Nat → State
  | 0 => s
  | k + 1 => (s.loadFirst k).setReg (Fin.ofNat 16 k) (s.memRead (s.indexPlus k))

/-- LD Vx, [I] (R205): V0 to V[x], I left alone. -/
def execLoadRegs (x : Reg) (s : State) : Result := .next (s.loadFirst (x.val + 1))

end Sys2Proof.Machine
end

