-- ==== Sys2Proof/Machine/NoOperation.lean ====
section
/-! DEFINITION. The no-op default (30_encoding.md R112). -/

namespace Sys2Proof.Machine

/-- NOP (R112): no effect; the fetch has advanced the PC. -/
def execNop (_w : Word) (s : State) : Result := .next s

end Sys2Proof.Machine
end

