-- ==== Sys2Proof/Machine/Random.lean ====
section
/-! DEFINITION. The random instruction (43_random.md). -/

namespace Sys2Proof.Machine

/-- RND Vx, kk (R231): the byte drawn is free (R230, log 1). -/
def execRnd (x : Reg) (kk : Byte) (s : State) : Result := .next ((s.setReg x (kk &&& s.randomByte)).nextDraw)

end Sys2Proof.Machine
end

