-- ==== Sys2Proof/Machine/RegisterAlu.lean ====
section
/-! DEFINITION. Register arithmetic and logic (41_register_alu.md): unsigned, 8 bits, wrapping (R171). -/

namespace Sys2Proof.Machine

/-- LD Vx, kk (R160). -/
def execLdImm (x : Reg) (kk : Byte) (s : State) : Result := .next (s.setReg x kk)

/-- ADD Vx, kk (R161): no flag. -/
def execAddImm (x : Reg) (kk : Byte) (s : State) : Result := .next (s.setReg x (s.reg x + kk))

/-- LD Vx, Vy (R162). -/
def execLdReg (x y : Reg) (s : State) : Result := .next (s.setReg x (s.reg y))

/-- OR Vx, Vy (R163): VF is left alone. -/
def execOrReg (x y : Reg) (s : State) : Result := .next (s.setReg x (s.reg x ||| s.reg y))

/-- AND Vx, Vy (R164): VF is left alone. -/
def execAndReg (x y : Reg) (s : State) : Result := .next (s.setReg x (s.reg x &&& s.reg y))

/-- XOR Vx, Vy (R165): VF is left alone. -/
def execXorReg (x y : Reg) (s : State) : Result := .next (s.setReg x (s.reg x ^^^ s.reg y))

/-- ADD Vx, Vy (R166): VF is the carry. -/
def execAddReg (x y : Reg) (s : State) : Result :=
  .next (s.setRegThenFlag x (s.reg x + s.reg y) (carry (s.reg x) (s.reg y)))

/-- SUB Vx, Vy (R167): VF is not-borrow of V[x] - V[y]. -/
def execSubReg (x y : Reg) (s : State) : Result :=
  .next (s.setRegThenFlag x (s.reg x - s.reg y) (notBorrow (s.reg x) (s.reg y)))

/-- SUBN Vx, Vy (R168): VF is not-borrow of V[y] - V[x]. -/
def execSubnReg (x y : Reg) (s : State) : Result :=
  .next (s.setRegThenFlag x (s.reg y - s.reg x) (notBorrow (s.reg y) (s.reg x)))

/-- SHR Vx (R169): V[x] is shifted in place and y is ignored. -/
def execShr (x : Reg) (_ign : Nibble) (s : State) : Result :=
  .next (s.setRegThenFlag x (s.reg x >>> 1) (shiftOutRight (s.reg x)))

/-- SHL Vx (R170): V[x] is shifted in place and y is ignored. -/
def execShl (x : Reg) (_ign : Nibble) (s : State) : Result :=
  .next (s.setRegThenFlag x (s.reg x <<< 1) (shiftOutLeft (s.reg x)))

end Sys2Proof.Machine
end

