-- ==== Sys2Proof/Machine/Step.lean ====
section
/-! DEFINITION. One step is one `cycle` call of the host (70_reset_and_hazards.md R350). -/

namespace Sys2Proof.Machine

/-- One cycle (R350). With a fault latched nothing happens (60_exceptions.md R304). Otherwise fetch, advance the PC,
run the handler the word selects, and end the cycle. What the cycle returns to the host is `State.cycleResult` of the
next state (60_exceptions.md R321). -/
def step (s : State) : Host.Outcome State Fault Refusal :=
  if s.fault = .none then
    match exec (decodeWord s.fetchWord) s.advancePc with
    | .next t => .next t.finishCycle
    | .fault r => .fault r
    | .refused r => .refused r
  else .next s

/-- The state with an instruction's word where the next step fetches it, the step ready to fetch (log 2). -/
def State.withFetchWord (s : State) (nbits w : Nat) : State := s.placeWord (tableWord nbits w)

end Sys2Proof.Machine
end

