-- ==== Sys2Proof/Machine/HostInterface.lean ====
section
/-! DEFINITION. The host's operations (60_exceptions.md R320), but for `cycle`, which is `step`. The host uses them
between steps and never during one (R325). -/

namespace Sys2Proof.Machine

/-! ## load -/

/-- Why a load fails (60_exceptions.md R305). -/
inductive LoadError where
  /-- The image is longer than 3584 bytes (70_reset_and_hazards.md R341). -/
  | imageTooLarge
  deriving DecidableEq, Repr

/-- Store bytes upward from an address, in order (R340). -/
def State.storeBytes (s : State) (a : Nat) : List Byte → State
  | [] => s
  | b :: bs => (s.memWrite a b).storeBytes (a + 1) bs

/-- `load(bytes)` (R340): a new machine with the image at 0x200, or the load error and no machine. Reset memory already
holds the font and zeros (10_state.md R49). -/
def State.load (bytes : List Byte) : Except LoadError State :=
  if bytes.length > Config.maxImage then .error .imageTooLarge
  else .ok (State.reset.storeBytes Config.programOrigin bytes)

/-! ## The result of a cycle and the fault latch -/

/-- What `cycle` returns (60_exceptions.md R321). -/
inductive CycleResult where
  /-- No fault was raised or latched. -/
  | ok
  /-- The fault raised in this cycle, or latched before it. -/
  | fault (code : BitVec 2) (pc word : Word)
  deriving DecidableEq, Repr

/-- The result of the cycle that ended in this state (R321): a cycle that faults, and every cycle after it, ends with
the fault latched (R303, R304), and no other cycle does. -/
def State.cycleResult (s : State) : CycleResult :=
  if s.fault = .none then .ok else .fault s.fault.code s.faultPc s.faultWord

/-- `read_fault(m)` (R326). -/
def State.readFault (s : State) : BitVec 2 × Word × Word := (s.fault.code, s.faultPc, s.faultWord)

/-! ## Devices -/

/-- `write_key(m, k, held)` (R324). -/
def State.writeKey (s : State) (k : Key) (held : Bool) : State := { s with keys := s.keys.set k.val held k.isLt }

/-- `read_sound_timer(m)` (R323). -/
def State.readSoundTimer (s : State) : Byte := s.st

/-- A cell as the host sees it: PIXEL_ON or PIXEL_OFF (R322). -/
def hostPixel (b : Bool) : BitVec 32 := if b then 0xFFFFFFFF else 0x00000000

/-- `read_framebuffer(m)` (R322): the 2048 cells in row-major order. -/
def State.readFramebuffer (s : State) : List (BitVec 32) :=
  (List.finRange 32).flatMap fun py => (List.finRange 64).map fun px => hostPixel (s.pixel px py)

end Sys2Proof.Machine
end

