-- ==== Sys2Proof/WellFormed.lean ====
section
/-! DEFINITION. When an instruction is well formed. -/

namespace Sys2Proof

/-- Every operand field is within its width by its type, so the one check is that a NOP holds a word that no other
instruction claims (30_encoding.md R112, R114). -/
def Instr.wellFormed : Instr → Bool
  | .nop w => isNopWord w
  | _ => true

end Sys2Proof
end

