-- ==== Sys2Proof/Safety.lean ====
section
/-! DEFINITION. The terms the statements use: the invariant of a machine, its end states, and what a state keeps. -/

namespace Sys2Proof.Machine

/-! ## The invariant -/

/-- The fault latch says what happened: with no fault it is as the load left it (10_state.md R49), and with a fault it
records the PC and the word of the instruction that raised it, the stack being full or empty (60_exceptions.md R300,
R303). -/
abbrev State.latchRecords (s : State) : Prop :=
  (s.fault = .none → s.faultPc = 0 ∧ s.faultWord = 0) ∧
  (s.fault ≠ .none → s.faultPc = s.pc ∧ s.faultWord = s.fetchWord) ∧
  (s.fault = .stackOverflow → s.sp = 16 ∧ fieldFamily s.faultWord = 0x2) ∧
  (s.fault = .stackUnderflow → s.sp = 0 ∧ fieldFamily s.faultWord = 0x0 ∧ fieldN s.faultWord = 0xE)

/-- What holds of every machine: memory is in its canonical form, SP is 0 to 16 (10_state.md R40), and the fault latch
says what happened. -/
abbrev State.Inv (s : State) : Prop := Memory.wf s.mem = true ∧ s.sp.toNat ≤ 16 ∧ s.latchRecords

/-! ## End states (70_reset_and_hazards.md R356) -/

/-- A fault is latched. -/
abbrev State.Faulted (s : State) : Prop := s.fault ≠ .none

/-- No fault, and the word at PC is a jump to PC itself. -/
abbrev State.Parked (s : State) : Prop :=
  s.fault = .none ∧ fieldFamily s.fetchWord = 0x1 ∧ (fieldNNN s.fetchWord).toNat = s.pc.toNat

/-! ## What two states share -/

/-- A part of the state, as frames name it. -/
inductive Part where
  | regs | pc | index | stack | delayTimer | soundTimer | memory | keys | display | latch | draws
  deriving DecidableEq, Repr

/-- The part is the same in both states, read through the model's own reads: memory byte by byte at every address. -/
def Part.same (p : Part) (s t : State) : Prop :=
  match p with
  | .regs => ∀ r, t.reg r = s.reg r
  | .pc => t.pc = s.pc
  | .index => t.i = s.i
  | .stack => t.sp = s.sp ∧ ∀ j, t.stackAt j = s.stackAt j
  | .delayTimer => t.dt = s.dt
  | .soundTimer => t.st = s.st
  | .memory => ∀ a, t.memRead a = s.memRead a
  | .keys => ∀ k, t.key k = s.key k
  | .display => ∀ px py, t.pixel px py = s.pixel px py
  | .latch => t.fault = s.fault ∧ t.faultPc = s.faultPc ∧ t.faultWord = s.faultWord
  | .draws => t.draws = s.draws

/-- Every part but the listed ones is the same in both states. -/
def UnchangedBut (changed : List Part) (s t : State) : Prop := ∀ p : Part, p ∉ changed → p.same s t

/-! ## Sprites -/

/-- A sprite of `n` rows read from I on, placed at column `vx mod 64` and row `vy mod 32`, has a 1 bit on the pixel: row r
is the byte at I + r, its bit 7 - c lies in column c, and both coordinates wrap (45_display.md R270). -/
def State.SpriteCovers (s : State) (vx vy : Byte) (n : Nat) (px : Col) (py : Row) : Prop :=
  ∃ r c : Nat, r < n ∧ c < 8 ∧ (s.memRead (s.i.toNat + r)).getLsbD (7 - c) = true ∧
    px.val = (vx.toNat % 64 + c) % 64 ∧ py.val = (vy.toNat % 32 + r) % 32

/-! ## What a word selects -/

/-- Every word that matches a row of the opcode map (30_encoding.md R116) decodes as `f` gives it. -/
def Selects (mask value : Word) (f : Word → Instr) : Prop := ∀ w : Word, w &&& mask = value → decodeWord w = f w

end Sys2Proof.Machine
end

