-- ==== Sys2Proof/Certificates/Slice0/Obligations.lean ====
section
/-! DEFINITION. The statements for the provers.

In a statement about `exec`, `s` is the state after the fetch, so `s.pc` is the instruction's address plus 2
(00_scope.md R16). `Selects mask value f` says that every word of the instruction's row (30_encoding.md R116) decodes to
it with its fields. `UnchangedBut [parts] s t` is the frame: every part of the state that is not listed is unchanged,
memory byte by byte. -/

open Sys2Proof Sys2Proof.Machine

/-! ## Encoding -/

/-- 00_scope.md R13: each field of a word is the bits the spec names, and nothing more. -/
def Obligations.FieldsAreTheirBits : Prop :=
  ∀ w : Word,
    (∀ b : Nat, b < 4 → (fieldFamily w).getLsbD b = w.getLsbD (12 + b)) ∧
    (∀ b : Nat, b < 4 → (fieldX w).val.testBit b = w.getLsbD (8 + b)) ∧
    (∀ b : Nat, b < 4 → (fieldY w).val.testBit b = w.getLsbD (4 + b)) ∧
    (∀ b : Nat, b < 4 → (fieldN w).getLsbD b = w.getLsbD b) ∧
    (∀ b : Nat, b < 8 → (fieldKK w).getLsbD b = w.getLsbD b) ∧
    (∀ b : Nat, b < 12 → (fieldNNN w).getLsbD b = w.getLsbD b)

/-- Words of 95_test_vectors.md T-DEC and of the source's §8 decode to the instructions named there. The ignored
bits and the NOP word that the instructions keep are the model's choice (log 7). -/
def Obligations.SpecWordsDecode : Prop :=
  decodeTableWord 16 0x0120 = some (.cls 0x12) ∧
  decodeTableWord 16 0x0FFE = some (.ret 0xFF) ∧
  decodeTableWord 16 0x5121 = some (.seReg 1 2 1) ∧
  decodeTableWord 16 0x6005 = some (.ldImm 0 0x05) ∧
  decodeTableWord 16 0x8126 = some (.shr 1 2) ∧
  decodeTableWord 16 0xA250 = some (.ldI 0x250) ∧
  decodeTableWord 16 0xC30F = some (.rnd 3 0x0F) ∧
  decodeTableWord 16 0xD005 = some (.drw 0 0 5) ∧
  decodeTableWord 16 0xE011 = some (.sknp 0 1) ∧
  decodeTableWord 16 0xF20A = some (.ldVxK 2) ∧
  decodeTableWord 16 0xF255 = some (.storeRegs 2) ∧
  decodeTableWord 16 0xE09F = some (.nop 0xE09F)

/-- Decoding the bytes of an encoded well-formed instruction, high byte first, gives it back, whatever follows it. That an
instruction has the bits its handler ignores, and a NOP its word, among its operands is the model's choice (log 7). -/
def Obligations.DecodeOfEncodeIsTheInstruction : Prop :=
  ∀ (i : Instr) (rest : List Byte), i.wellFormed = true →
    decodeWord (encode i) = i ∧
    decode (highByte (encode i) :: lowByte (encode i) :: rest) = .ok (i, rest)

/-- The model's choice (log 7): every word decodes to a well-formed instruction, and encoding that gives the word back,
ignored bits and NOP words included. The spec's own assembler writes ignored nibbles as zero (30_encoding.md R121), so
it gives back canonical words alone; here an instruction keeps the bits its handler ignores. -/
def Obligations.EncodeOfDecodeIsTheWord : Prop :=
  ∀ w : Word, (decodeWord w).wellFormed = true ∧ encode (decodeWord w) = w

/-- 30_encoding.md R115, an inference of the spec from R104 to R114: a word matches the row of what it decodes to, and
no other instruction's row. NOP, the default row, is taken only by words that match no row. -/
def Obligations.EveryWordMatchesExactlyItsRow : Prop :=
  ∀ w : Word,
    w &&& (decodeWord w).rowMask = (decodeWord w).rowMatch ∧
    ∀ i : Instr, i.rowMask ≠ 0 → w &&& i.rowMask = i.rowMatch →
      (decodeWord w).rowMask = i.rowMask ∧ (decodeWord w).rowMatch = i.rowMatch

/-- 30_encoding.md R112: the NOP words are those that no family table claims (R107 to R110), and a NOP cycle advances
the PC by 2, ticks the timers and changes nothing else. -/
def Obligations.NopWordsHaveNoEffect : Prop :=
  (∀ w : Word, decodeWord w = .nop w ↔
    (fieldFamily w = 0x0 ∧ fieldN w ≠ 0x0 ∧ fieldN w ≠ 0xE) ∨
    (fieldFamily w = 0x8 ∧ 8 ≤ (fieldN w).toNat ∧ fieldN w ≠ 0xE) ∨
    (fieldFamily w = 0xE ∧ fieldN w ≠ 0x1 ∧ fieldN w ≠ 0xE) ∨
    (fieldFamily w = 0xF ∧ fieldKK w ∉ ([0x07, 0x0A, 0x15, 0x18, 0x1E, 0x29, 0x33, 0x55, 0x65] : List Byte))) ∧
  (∀ (w : Word) (s : State), exec (.nop w) s = .next s) ∧
  (∀ s : State, s.fault = .none → decodeWord s.fetchWord = .nop s.fetchWord →
    ∃ t, step s = .next t ∧ t.pc = s.pc + 2 ∧ t.dt.toNat = s.dt.toNat - 1 ∧ t.st.toNat = s.st.toNat - 1 ∧
      UnchangedBut [.pc, .delayTimer, .soundTimer] s t)

/-! ## The cycle -/

/-- 70_reset_and_hazards.md R350: with no fault latched, a cycle runs the instruction that the two bytes at PC decode to,
on the state with PC advanced by 2. A fault raised ends the cycle there; otherwise each timer goes down by one, not
below zero. Where the instruction stops, so does the cycle. -/
def Obligations.StepRunsTheDecodedInstruction : Prop :=
  ∀ (s : State) (i : Instr), s.fault = .none →
    decode [s.memRead s.pc.toNat, s.memRead (s.pc.toNat + 1)] = .ok (i, []) →
    step s =
      match exec i { s with pc := s.pc + 2 } with
      | .next t => .next (if t.fault = .none then
          { t with dt := if t.dt = 0 then 0 else t.dt - 1, st := if t.st = 0 then 0 else t.st - 1 } else t)
      | .fault r => .fault r
      | .refused r => .refused r

/-- 20_memory.md R76, R77: the word fetched is the byte at PC mod 4096 as its high byte and the byte at (PC + 1) mod
4096 as its low byte, odd and large PCs included; and the word the model places for the next fetch is the word
fetched, with no fault latched. -/
def Obligations.FetchReadsTwoBytesHighFirst : Prop :=
  (∀ s : State, s.fetchWord.toNat =
    256 * (s.memRead (s.pc.toNat % 4096)).toNat + (s.memRead ((s.pc.toNat + 1) % 4096)).toNat) ∧
  (∀ (s : State) (w : Word), (s.withFetchWord 16 w.toNat).fetchWord = w ∧ (s.withFetchWord 16 w.toNat).fault = .none ∧
    (s.fault = .none → UnchangedBut [.memory] s (s.withFetchWord 16 w.toNat)))

/-- 10_state.md R36, an inference of the spec from R103 and the instruction rules: how a cycle that does not fault
leaves PC, for every instruction. -/
def Obligations.PcAfterEveryCycle : Prop :=
  ∀ s t : State, s.fault = .none → step s = .next t → t.fault = .none →
    let w := s.fetchWord
    let f := fieldFamily w
    let vx := s.reg (fieldX w)
    let vy := s.reg (fieldY w)
    t.pc =
      if f = 0x1 ∨ f = 0x2 then (fieldNNN w).setWidth 16
      else if f = 0xB then (fieldNNN w).setWidth 16 + (s.reg 0).setWidth 16
      else if f = 0x0 ∧ fieldN w = 0xE then s.stackAt (Fin.ofNat 16 (s.sp.toNat - 1))
      else if (f = 0x3 ∧ vx = fieldKK w) ∨ (f = 0x4 ∧ vx ≠ fieldKK w) ∨ (f = 0x5 ∧ vx = vy) ∨ (f = 0x9 ∧ vx ≠ vy) ∨
          (f = 0xE ∧ fieldN w = 0xE ∧ s.key (Fin.ofNat 16 vx.toNat) = true) ∨
          (f = 0xE ∧ fieldN w = 0x1 ∧ s.key (Fin.ofNat 16 vx.toNat) = false) then s.pc + 4
      else if f = 0xF ∧ fieldKK w = 0x0A ∧ ∀ k, s.key k = false then s.pc
      else s.pc + 2

/-- 70_reset_and_hazards.md R352, with the order of R351 (D15, the spec's own decision): in every cycle that does not
fault each timer ends one below its value after the instruction, floored at zero, the instruction coming first. -/
def Obligations.TimersTickAfterTheInstruction : Prop :=
  ∀ s t : State, s.fault = .none → step s = .next t → t.fault = .none →
    let w := s.fetchWord
    t.dt.toNat = (if w &&& 0xF0FF = 0xF015 then s.reg (fieldX w) else s.dt).toNat - 1 ∧
    t.st.toNat = (if w &&& 0xF0FF = 0xF018 then s.reg (fieldX w) else s.st).toNat - 1

/-- 10_state.md R39, R40, R42, R43, 20_memory.md R74: a cycle changes memory only for Fx33 and Fx55, the stack only
for 2nnn and 00EE, the framebuffer only for 00E0 and Dxyn, I only for Annn, Fx1E and Fx29, and the keys never. -/
def Obligations.OnlyTheNamedInstructionsWriteEachPart : Prop :=
  ∀ s t : State, step s = .next t →
    let w := s.fetchWord
    (w &&& 0xF0FF ≠ 0xF033 → w &&& 0xF0FF ≠ 0xF055 → Part.same .memory s t) ∧
    (w &&& 0xF000 ≠ 0x2000 → w &&& 0xF00F ≠ 0x000E → Part.same .stack s t) ∧
    (w &&& 0xF00F ≠ 0x0000 → w &&& 0xF000 ≠ 0xD000 → Part.same .display s t) ∧
    (w &&& 0xF000 ≠ 0xA000 → w &&& 0xF0FF ≠ 0xF01E → w &&& 0xF0FF ≠ 0xF029 → Part.same .index s t) ∧
    (w &&& 0xF000 ≠ 0xC000 → Part.same .draws s t) ∧
    Part.same .keys s t

/-- 10_state.md R33 (an inference of the spec from the instruction rules) and R38: a cycle changes a general register
only if the instruction names it as its destination, or is a block load that reaches it, or the register is VF and the
instruction is one of the six that write a flag. -/
def Obligations.OnlyNamedRegistersChange : Prop :=
  ∀ (s t : State) (r : Reg), step s = .next t → t.reg r ≠ s.reg r →
    let w := s.fetchWord
    let f := fieldFamily w
    (r = fieldX w ∧ (f = 0x6 ∨ f = 0x7 ∨ f = 0x8 ∨ f = 0xC ∨ w &&& 0xF0FF = 0xF007 ∨ w &&& 0xF0FF = 0xF00A)) ∨
    (r ≤ fieldX w ∧ w &&& 0xF0FF = 0xF065) ∨
    (r = 15 ∧ (f = 0xD ∨ (f = 0x8 ∧ fieldN w ∈ ([0x4, 0x5, 0x6, 0x7, 0xE] : List Nibble))))

/-! ## Invariant -/

/-- Every step from a state that meets the invariant gives one that meets it: memory stays in its canonical form, SP
stays 0 to 16 (10_state.md R40), and the fault latch keeps recording the PC and word of the instruction that raised it
(60_exceptions.md R303, R304). -/
def Obligations.EveryStepKeepsTheInvariant : Prop := ∀ s t : State, s.Inv → step s = .next t → t.Inv

/-- The machine right after reset meets the invariant. -/
def Obligations.ResetMeetsTheInvariant : Prop := State.reset.Inv

/-- An inference from 30_encoding.md R114 and 70_reset_and_hazards.md R354, R356: from every state that meets the
invariant a cycle completes: no encoding, operand value, address or PC stops the machine, and the state reached meets
the invariant again. -/
def Obligations.EveryCycleCompletes : Prop := ∀ s : State, s.Inv → ∃ t, step s = .next t ∧ t.Inv

/-- The host's writes keep the invariant: a key write changes the one key and nothing else (60_exceptions.md R324),
and every machine a load builds meets the invariant. -/
def Obligations.HostWritesKeepTheInvariant : Prop :=
  (∀ (s : State) (k : Key) (held : Bool),
    (∀ j, (s.writeKey k held).key j = if j = k then held else s.key j) ∧ UnchangedBut [.keys] s (s.writeKey k held) ∧
    (s.Inv → (s.writeKey k held).Inv)) ∧
  (∀ (bytes : List Byte) (m : State), State.load bytes = .ok m → m.Inv)

/-! ## Load, faults and end states -/

/-- 70_reset_and_hazards.md R340, R341, 10_state.md R49: an image of at most 3584 bytes loads, every component at its
reset value and the image at 0x200; a longer one fails and builds no machine. -/
def Obligations.LoadBuildsTheResetMachine : Prop :=
  ∀ bytes : List Byte,
    (bytes.length ≤ 3584 → ∃ m, State.load bytes = .ok m ∧
      (∀ r, m.reg r = 0) ∧ m.pc = 0x200 ∧ m.i = 0 ∧ m.sp = 0 ∧ (∀ j, m.stackAt j = 0) ∧ m.dt = 0 ∧ m.st = 0 ∧
      (∀ k, m.key k = false) ∧ (∀ px py, m.pixel px py = false) ∧
      m.fault = .none ∧ m.faultPc = 0 ∧ m.faultWord = 0 ∧
      (∀ a : Nat, a < 4096 → m.memRead a =
        if 0x200 ≤ a ∧ a < 0x200 + bytes.length then bytes.getD (a - 0x200) 0
        else if 0x050 ≤ a ∧ a < 0x0A0 then fontBytes.getD (a - 0x050) 0
        else 0)) ∧
    (3584 < bytes.length → State.load bytes = .error .imageTooLarge)

/-- 60_exceptions.md R304, R326: a cycle that starts with a fault latched changes nothing, and its result is the
latched fault, which the host can read in any state. A key write leaves the latch, and only a load clears it. -/
def Obligations.FaultedMachineStaysAsItIs : Prop :=
  (∀ s : State, s.fault ≠ .none →
    step s = .next s ∧ s.cycleResult = .fault s.fault.code s.faultPc s.faultWord) ∧
  (∀ s : State, s.readFault = (s.fault.code, s.faultPc, s.faultWord)) ∧
  (∀ (s : State) (k : Key) (held : Bool), Part.same .latch s (s.writeKey k held)) ∧
  (∀ (bytes : List Byte) (m : State), State.load bytes = .ok m → m.fault = .none ∧ m.faultPc = 0 ∧ m.faultWord = 0) ∧
  FaultCode.stackOverflow.code = 1 ∧ FaultCode.stackUnderflow.code = 2

/-- 60_exceptions.md R303 (D5, the spec's own decision): a cycle that raises a fault leaves the state it started with,
but for the latch, which records the fault, the address of the instruction and its word; the cycle returns the same
three. -/
def Obligations.FaultingCycleChangesOnlyTheLatch : Prop :=
  ∀ s t : State, s.fault = .none → step s = .next t → t.fault ≠ .none →
    t = { s with fault := t.fault, faultPc := s.pc, faultWord := s.fetchWord } ∧
    t.cycleResult = .fault t.fault.code s.pc s.fetchWord

/-- 60_exceptions.md R301, R302 (D4, the spec's own decision): from a state with SP 0 to 16 and no fault, a cycle
raises STACK_OVERFLOW exactly for a CALL with SP = 16, STACK_UNDERFLOW exactly for a family-0 word of low nibble 0xE
with SP = 0, and no fault otherwise. -/
def Obligations.OnlyFullCallAndEmptyReturnFault : Prop :=
  ∀ s : State, s.fault = .none → s.sp.toNat ≤ 16 → ∃ t, step s = .next t ∧
    t.fault =
      if s.fetchWord &&& 0xF000 = 0x2000 ∧ s.sp = 16 then .stackOverflow
      else if s.fetchWord &&& 0xF00F = 0x000E ∧ s.sp = 0 then .stackUnderflow
      else .none

/-- The model's own stop (log 5), in states no run reaches: CALL and RET with SP above 16 name a stack entry that does
not exist. -/
def Obligations.StackPointerOutOfRangeStops : Prop :=
  ∀ (s : State) (nnn : Addr) (ign : Byte), 16 < s.sp.toNat →
    exec (.call nnn) s = .fault .noStackEntry ∧ exec (.ret ign) s = .fault .noStackEntry

/-- 70_reset_and_hazards.md R356, an inference of the spec from R350 and R132: every later cycle leaves a parked
machine as it is except DT and ST, which count down, and it stays parked. -/
def Obligations.ParkedMachineOnlyCountsDown : Prop :=
  ∀ s : State, s.Parked → ∃ t, step s = .next t ∧ t.Parked ∧ UnchangedBut [.delayTimer, .soundTimer] s t ∧
    t.dt.toNat = s.dt.toNat - 1 ∧ t.st.toNat = s.st.toNat - 1

/-- 60_exceptions.md R322: the host reads 2048 cells, cell (px, py) at position py * 64 + px, all ones for on and zero
for off. -/
def Obligations.HostReadsTheFrameRowMajor : Prop :=
  ∀ s : State, s.readFramebuffer.length = 2048 ∧
    ∀ (px : Col) (py : Row), s.readFramebuffer[py.val * 64 + px.val]? =
      some (if s.pixel px py then 0xFFFFFFFF else 0x00000000)

/-! ## Control flow (40_control_flow.md) -/

/-- R130, CLS. -/
def Obligations.ClearTurnsEveryPixelOff : Prop :=
  Selects 0xF00F 0x0000 (fun w => .cls (fieldOuter w)) ∧
  ∀ (ign : Byte) (s : State), ∃ t, exec (.cls ign) s = .next t ∧
    (∀ px py, t.pixel px py = false) ∧ UnchangedBut [.display] s t

/-- R131, RET: with an entry in use, SP goes down by one and PC is the entry popped, which stays in place; with none,
STACK_UNDERFLOW is taken (60_exceptions.md R302). -/
def Obligations.ReturnPopsTheAddress : Prop :=
  Selects 0xF00F 0x000E (fun w => .ret (fieldOuter w)) ∧
  ∀ (ign : Byte) (s : State),
    (0 < s.sp.toNat → s.sp.toNat ≤ 16 → ∃ t, exec (.ret ign) s = .next t ∧
      t.sp.toNat + 1 = s.sp.toNat ∧ (∀ j : Fin 16, j.val + 1 = s.sp.toNat → t.pc = s.stackAt j) ∧
      (∀ j, t.stackAt j = s.stackAt j) ∧ UnchangedBut [.pc, .stack] s t) ∧
    (s.sp = 0 → ∃ t, exec (.ret ign) s = .next t ∧ t.pc = s.pc - 2 ∧
      t.fault = .stackUnderflow ∧ t.faultPc = s.pc - 2 ∧ t.faultWord = encode (.ret ign) ∧
      UnchangedBut [.pc, .latch] s t)

/-- R132, JP nnn. -/
def Obligations.JumpSetsThePc : Prop :=
  Selects 0xF000 0x1000 (fun w => .jp (fieldNNN w)) ∧
  ∀ (nnn : Addr) (s : State), ∃ t, exec (.jp nnn) s = .next t ∧ t.pc.toNat = nnn.toNat ∧ UnchangedBut [.pc] s t

/-- R133, CALL nnn: with a free entry, the advanced PC is pushed and PC is nnn; with SP = 16, STACK_OVERFLOW is taken
(60_exceptions.md R301). -/
def Obligations.CallPushesTheReturnAddress : Prop :=
  Selects 0xF000 0x2000 (fun w => .call (fieldNNN w)) ∧
  ∀ (nnn : Addr) (s : State),
    (s.sp.toNat < 16 → ∃ t, exec (.call nnn) s = .next t ∧
      t.sp.toNat = s.sp.toNat + 1 ∧ (∀ j : Fin 16, t.stackAt j = if j.val = s.sp.toNat then s.pc else s.stackAt j) ∧
      t.pc.toNat = nnn.toNat ∧ UnchangedBut [.pc, .stack] s t) ∧
    (s.sp = 16 → ∃ t, exec (.call nnn) s = .next t ∧ t.pc = s.pc - 2 ∧
      t.fault = .stackOverflow ∧ t.faultPc = s.pc - 2 ∧ t.faultWord = encode (.call nnn) ∧
      UnchangedBut [.pc, .latch] s t)

/-- R134, R135, SE Vx, kk and SNE Vx, kk. -/
def Obligations.ImmediateSkipsMoveThePcByTwo : Prop :=
  Selects 0xF000 0x3000 (fun w => .seImm (fieldX w) (fieldKK w)) ∧
  Selects 0xF000 0x4000 (fun w => .sneImm (fieldX w) (fieldKK w)) ∧
  ∀ (x : Reg) (kk : Byte) (s : State),
    (∃ t, exec (.seImm x kk) s = .next t ∧ t.pc = (if s.reg x = kk then s.pc + 2 else s.pc) ∧
      UnchangedBut [.pc] s t) ∧
    (∃ t, exec (.sneImm x kk) s = .next t ∧ t.pc = (if s.reg x = kk then s.pc else s.pc + 2) ∧
      UnchangedBut [.pc] s t)

/-- R136, R137, SE Vx, Vy and SNE Vx, Vy. -/
def Obligations.RegisterSkipsMoveThePcByTwo : Prop :=
  Selects 0xF000 0x5000 (fun w => .seReg (fieldX w) (fieldY w) (fieldN w)) ∧
  Selects 0xF000 0x9000 (fun w => .sneReg (fieldX w) (fieldY w) (fieldN w)) ∧
  ∀ (x y : Reg) (ign : Nibble) (s : State),
    (∃ t, exec (.seReg x y ign) s = .next t ∧ t.pc = (if s.reg x = s.reg y then s.pc + 2 else s.pc) ∧
      UnchangedBut [.pc] s t) ∧
    (∃ t, exec (.sneReg x y ign) s = .next t ∧ t.pc = (if s.reg x = s.reg y then s.pc else s.pc + 2) ∧
      UnchangedBut [.pc] s t)

/-- R138, JP V0, nnn: PC holds the whole sum, which is at most 0x10FE. -/
def Obligations.JumpPlusV0SetsThePc : Prop :=
  Selects 0xF000 0xB000 (fun w => .jpV0 (fieldNNN w)) ∧
  ∀ (nnn : Addr) (s : State), ∃ t, exec (.jpV0 nnn) s = .next t ∧ t.pc.toNat = nnn.toNat + (s.reg 0).toNat ∧
    UnchangedBut [.pc] s t

/-! ## Registers (41_register_alu.md) -/

/-- R160, R162, LD Vx, kk and LD Vx, Vy. -/
def Obligations.RegisterLoadsWriteOneRegister : Prop :=
  Selects 0xF000 0x6000 (fun w => .ldImm (fieldX w) (fieldKK w)) ∧
  Selects 0xF00F 0x8000 (fun w => .ldReg (fieldX w) (fieldY w)) ∧
  (∀ (x : Reg) (kk : Byte) (s : State), ∃ t, exec (.ldImm x kk) s = .next t ∧
    (∀ r, t.reg r = if r = x then kk else s.reg r) ∧ UnchangedBut [.regs] s t) ∧
  (∀ (x y : Reg) (s : State), ∃ t, exec (.ldReg x y) s = .next t ∧
    (∀ r, t.reg r = if r = x then s.reg y else s.reg r) ∧ UnchangedBut [.regs] s t)

/-- R161, ADD Vx, kk: the sum modulo 256, and no flag. -/
def Obligations.AddImmediateWrapsWithoutFlag : Prop :=
  Selects 0xF000 0x7000 (fun w => .addImm (fieldX w) (fieldKK w)) ∧
  ∀ (x : Reg) (kk : Byte) (s : State), ∃ t, exec (.addImm x kk) s = .next t ∧
    (t.reg x).toNat = ((s.reg x).toNat + kk.toNat) % 256 ∧ (∀ r, r ≠ x → t.reg r = s.reg r) ∧ UnchangedBut [.regs] s t

/-- R163 to R165, OR, AND and XOR: bit by bit, and no flag (D13, the spec's own decision). -/
def Obligations.LogicWorksBitByBitWithoutFlag : Prop :=
  Selects 0xF00F 0x8001 (fun w => .orReg (fieldX w) (fieldY w)) ∧
  Selects 0xF00F 0x8002 (fun w => .andReg (fieldX w) (fieldY w)) ∧
  Selects 0xF00F 0x8003 (fun w => .xorReg (fieldX w) (fieldY w)) ∧
  ∀ (x y : Reg) (s : State),
    (∃ t, exec (.orReg x y) s = .next t ∧
      (∀ b, (t.reg x).getLsbD b = ((s.reg x).getLsbD b || (s.reg y).getLsbD b)) ∧
      (∀ r, r ≠ x → t.reg r = s.reg r) ∧ UnchangedBut [.regs] s t) ∧
    (∃ t, exec (.andReg x y) s = .next t ∧
      (∀ b, (t.reg x).getLsbD b = ((s.reg x).getLsbD b && (s.reg y).getLsbD b)) ∧
      (∀ r, r ≠ x → t.reg r = s.reg r) ∧ UnchangedBut [.regs] s t) ∧
    (∃ t, exec (.xorReg x y) s = .next t ∧
      (∀ b, (t.reg x).getLsbD b = ((s.reg x).getLsbD b != (s.reg y).getLsbD b)) ∧
      (∀ r, r ≠ x → t.reg r = s.reg r) ∧ UnchangedBut [.regs] s t)

/-- R166, ADD Vx, Vy: the sum modulo 256, and VF is the carry, written last (R172; D8, the spec's own decision). -/
def Obligations.AddSetsCarry : Prop :=
  Selects 0xF00F 0x8004 (fun w => .addReg (fieldX w) (fieldY w)) ∧
  ∀ (x y : Reg) (s : State), ∃ t, exec (.addReg x y) s = .next t ∧
    (x ≠ 15 → (t.reg x).toNat = ((s.reg x).toNat + (s.reg y).toNat) % 256) ∧
    (t.reg 15).toNat = (if 255 < (s.reg x).toNat + (s.reg y).toNat then 1 else 0) ∧
    (∀ r, r ≠ x → r ≠ 15 → t.reg r = s.reg r) ∧ UnchangedBut [.regs] s t

/-- R167, R168, SUB and SUBN: the difference modulo 256, and VF is not-borrow, written last (R172; D8). -/
def Obligations.SubtractionsSetNotBorrow : Prop :=
  Selects 0xF00F 0x8005 (fun w => .subReg (fieldX w) (fieldY w)) ∧
  Selects 0xF00F 0x8007 (fun w => .subnReg (fieldX w) (fieldY w)) ∧
  ∀ (x y : Reg) (s : State),
    (∃ t, exec (.subReg x y) s = .next t ∧
      (x ≠ 15 → (t.reg x).toNat = ((s.reg x).toNat + 256 - (s.reg y).toNat) % 256) ∧
      (t.reg 15).toNat = (if (s.reg y).toNat ≤ (s.reg x).toNat then 1 else 0) ∧
      (∀ r, r ≠ x → r ≠ 15 → t.reg r = s.reg r) ∧ UnchangedBut [.regs] s t) ∧
    (∃ t, exec (.subnReg x y) s = .next t ∧
      (x ≠ 15 → (t.reg x).toNat = ((s.reg y).toNat + 256 - (s.reg x).toNat) % 256) ∧
      (t.reg 15).toNat = (if (s.reg x).toNat ≤ (s.reg y).toNat then 1 else 0) ∧
      (∀ r, r ≠ x → r ≠ 15 → t.reg r = s.reg r) ∧ UnchangedBut [.regs] s t)

/-- R169, R170, SHR and SHL: V[x] shifted in place by 1 (D9), and VF is the bit shifted out, written last (R172; D8).
-/
def Obligations.ShiftsCaptureTheBitShiftedOut : Prop :=
  Selects 0xF00F 0x8006 (fun w => .shr (fieldX w) (fieldMid w)) ∧
  Selects 0xF00F 0x800E (fun w => .shl (fieldX w) (fieldMid w)) ∧
  ∀ (x : Reg) (ign : Nibble) (s : State),
    (∃ t, exec (.shr x ign) s = .next t ∧
      (x ≠ 15 → (t.reg x).toNat = (s.reg x).toNat / 2) ∧ (t.reg 15).toNat = (s.reg x).toNat % 2 ∧
      (∀ r, r ≠ x → r ≠ 15 → t.reg r = s.reg r) ∧ UnchangedBut [.regs] s t) ∧
    (∃ t, exec (.shl x ign) s = .next t ∧
      (x ≠ 15 → (t.reg x).toNat = 2 * (s.reg x).toNat % 256) ∧ (t.reg 15).toNat = (s.reg x).toNat / 128 ∧
      (∀ r, r ≠ x → r ≠ 15 → t.reg r = s.reg r) ∧ UnchangedBut [.regs] s t)

/-! ## Memory and the index register (42_memory_index.md) -/

/-- R200, R201, R202, LD I, nnn, ADD I, Vx and LD F, Vx: no flag (D12), the digit unmasked (D11). -/
def Obligations.IndexInstructionsSetOnlyTheIndex : Prop :=
  Selects 0xF000 0xA000 (fun w => .ldI (fieldNNN w)) ∧
  Selects 0xF0FF 0xF01E (fun w => .addI (fieldX w)) ∧
  Selects 0xF0FF 0xF029 (fun w => .ldF (fieldX w)) ∧
  (∀ (nnn : Addr) (s : State), ∃ t, exec (.ldI nnn) s = .next t ∧ t.i.toNat = nnn.toNat ∧ UnchangedBut [.index] s t) ∧
  (∀ (x : Reg) (s : State),
    (∃ t, exec (.addI x) s = .next t ∧ t.i.toNat = (s.i.toNat + (s.reg x).toNat) % 65536 ∧ UnchangedBut [.index] s t) ∧
    (∃ t, exec (.ldF x) s = .next t ∧ t.i.toNat = 0x050 + 5 * (s.reg x).toNat ∧ UnchangedBut [.index] s t))

/-- R203, LD B, Vx: hundreds at I, tens at I + 1, ones at I + 2, modulo 4096, and every other byte as before. -/
def Obligations.DecimalStoreWritesThreeDigits : Prop :=
  Selects 0xF0FF 0xF033 (fun w => .ldB (fieldX w)) ∧
  ∀ (x : Reg) (s : State), ∃ t, exec (.ldB x) s = .next t ∧
    (∀ a : Nat, (t.memRead a).toNat =
      if a % 4096 = s.i.toNat % 4096 then (s.reg x).toNat / 100
      else if a % 4096 = (s.i.toNat + 1) % 4096 then (s.reg x).toNat / 10 % 10
      else if a % 4096 = (s.i.toNat + 2) % 4096 then (s.reg x).toNat % 10
      else (s.memRead a).toNat) ∧
    UnchangedBut [.memory] s t

/-- R204, LD [I], Vx: register j at I + j modulo 4096 for j = 0..x, every other byte as before, and I kept (D10). -/
def Obligations.BlockStoreWritesEachRegister : Prop :=
  Selects 0xF0FF 0xF055 (fun w => .storeRegs (fieldX w)) ∧
  ∀ (x : Reg) (s : State), ∃ t, exec (.storeRegs x) s = .next t ∧
    (∀ (a : Nat) (j : Reg), j ≤ x → a % 4096 = (s.i.toNat + j.val) % 4096 → t.memRead a = s.reg j) ∧
    (∀ a : Nat, (∀ j : Reg, j ≤ x → a % 4096 ≠ (s.i.toNat + j.val) % 4096) → t.memRead a = s.memRead a) ∧
    UnchangedBut [.memory] s t

/-- R205, LD Vx, [I]: register j from I + j for j = 0..x, every other register as before, and I kept (D10). -/
def Obligations.BlockLoadReadsEachRegister : Prop :=
  Selects 0xF0FF 0xF065 (fun w => .loadRegs (fieldX w)) ∧
  ∀ (x : Reg) (s : State), ∃ t, exec (.loadRegs x) s = .next t ∧
    (∀ j : Reg, t.reg j = if j ≤ x then s.memRead (s.i.toNat + j.val) else s.reg j) ∧ UnchangedBut [.regs] s t

/-- R206, an inference of the spec from R204 and R205: a block store and then a block load with the same I, x and
memory restores V0 to V[x], whatever the registers hold in between. -/
def Obligations.BlockStoreThenLoadRestores : Prop :=
  ∀ (x : Reg) (s t u : State), exec (.storeRegs x) s = .next t → u.i = s.i → (∀ a, u.memRead a = t.memRead a) →
    ∃ v, exec (.loadRegs x) u = .next v ∧ ∀ j : Reg, j ≤ x → v.reg j = s.reg j

/-! ## Random (43_random.md) -/

/-- R231, RND Vx, kk: V[x] is kk masked with this draw's byte, which is free (log 1), so that bits outside kk are 0,
and the draw is used up. -/
def Obligations.RandomIsMaskedByTheImmediate : Prop :=
  Selects 0xF000 0xC000 (fun w => .rnd (fieldX w) (fieldKK w)) ∧
  ∀ (x : Reg) (kk : Byte) (s : State), ∃ t, exec (.rnd x kk) s = .next t ∧
    t.reg x = kk &&& Config.randomByte s.draws ∧ t.reg x &&& ~~~kk = 0 ∧ t.draws = s.draws + 1 ∧
    (∀ r, r ≠ x → t.reg r = s.reg r) ∧ UnchangedBut [.regs, .draws] s t

/-! ## Keyboard and timers (44_keyboard_timers.md) -/

/-- R240, R241, SKP and SKNP: the key is V[x] modulo 16. -/
def Obligations.KeySkipsTestTheLatch : Prop :=
  Selects 0xF00F 0xE00E (fun w => .skp (fieldX w) (fieldMid w)) ∧
  Selects 0xF00F 0xE001 (fun w => .sknp (fieldX w) (fieldMid w)) ∧
  ∀ (x : Reg) (ign : Nibble) (k : Key) (s : State), k.val = (s.reg x).toNat % 16 →
    (∃ t, exec (.skp x ign) s = .next t ∧ t.pc = (if s.key k then s.pc + 2 else s.pc) ∧ UnchangedBut [.pc] s t) ∧
    (∃ t, exec (.sknp x ign) s = .next t ∧ t.pc = (if s.key k then s.pc else s.pc + 2) ∧ UnchangedBut [.pc] s t)

/-- R242, LD Vx, DT: V[x] is DT before this cycle's tick, and DT goes down by one, not below zero, at the cycle's end.
-/
def Obligations.DelayTimerIsReadBeforeTheTick : Prop :=
  Selects 0xF0FF 0xF007 (fun w => .ldVxDt (fieldX w)) ∧
  (∀ (x : Reg) (s : State), ∃ t, exec (.ldVxDt x) s = .next t ∧
    (∀ r, t.reg r = if r = x then s.dt else s.reg r) ∧ UnchangedBut [.regs] s t) ∧
  (∀ s : State, s.fault = .none → s.fetchWord &&& 0xF0FF = 0xF007 → ∃ t, step s = .next t ∧
    t.reg (fieldX s.fetchWord) = s.dt ∧ t.dt.toNat = s.dt.toNat - 1)

/-- R243, R244, LD DT, Vx and LD ST, Vx: the timer takes V[x], and the tick of the same cycle then lowers it. -/
def Obligations.TimerWritesTickInTheSameCycle : Prop :=
  Selects 0xF0FF 0xF015 (fun w => .ldDtVx (fieldX w)) ∧
  Selects 0xF0FF 0xF018 (fun w => .ldStVx (fieldX w)) ∧
  (∀ (x : Reg) (s : State),
    (∃ t, exec (.ldDtVx x) s = .next t ∧ t.dt = s.reg x ∧ UnchangedBut [.delayTimer] s t) ∧
    (∃ t, exec (.ldStVx x) s = .next t ∧ t.st = s.reg x ∧ UnchangedBut [.soundTimer] s t)) ∧
  (∀ s : State, s.fault = .none →
    (s.fetchWord &&& 0xF0FF = 0xF015 → ∃ t, step s = .next t ∧
      t.dt.toNat = (s.reg (fieldX s.fetchWord)).toNat - 1) ∧
    (s.fetchWord &&& 0xF0FF = 0xF018 → ∃ t, step s = .next t ∧
      t.st.toNat = (s.reg (fieldX s.fetchWord)).toNat - 1 ∧ t.readSoundTimer = t.st))

/-- R245, LD Vx, K: with no key held PC goes back to the instruction and nothing else changes; otherwise V[x] is the
lowest held key. -/
def Obligations.KeyWaitTakesTheLowestKey : Prop :=
  Selects 0xF0FF 0xF00A (fun w => .ldVxK (fieldX w)) ∧
  ∀ (x : Reg) (s : State),
    ((∀ k, s.key k = false) → ∃ t, exec (.ldVxK x) s = .next t ∧ t.pc = s.pc - 2 ∧ UnchangedBut [.pc] s t) ∧
    (∀ k : Key, s.key k = true → (∀ j : Key, j < k → s.key j = false) → ∃ t, exec (.ldVxK x) s = .next t ∧
      (t.reg x).toNat = k.val ∧ (∀ r, r ≠ x → t.reg r = s.reg r) ∧ UnchangedBut [.regs] s t)

/-- 70_reset_and_hazards.md R357 (an inference of the spec from R245) and R352: while no key is held, a cycle at an
Fx0A changes nothing but the timers, which go on counting down, so the next cycle runs the same instruction again. -/
def Obligations.KeyWaitRepeatsWithoutAKey : Prop :=
  ∀ s : State, s.fault = .none → s.fetchWord &&& 0xF0FF = 0xF00A → (∀ k, s.key k = false) →
    ∃ t, step s = .next t ∧ t.dt.toNat = s.dt.toNat - 1 ∧ t.st.toNat = s.st.toNat - 1 ∧
      UnchangedBut [.delayTimer, .soundTimer] s t ∧ t.fetchWord = s.fetchWord

/-! ## Display (45_display.md) -/

/-- R270, DRW Vx, Vy, n, with VF as R271 puts it: the pixels under the sprite's 1 bits are toggled and no others, VF
is 1 if one of them was on before and 0 otherwise, whatever VF was, and I and memory are kept. -/
def Obligations.DrawTogglesThePixelsCovered : Prop :=
  Selects 0xF000 0xD000 (fun w => .drw (fieldX w) (fieldY w) (fieldN w)) ∧
  ∀ (x y : Reg) (n : Nibble) (s : State), ∃ t, exec (.drw x y n) s = .next t ∧
    (∀ px py, s.SpriteCovers (s.reg x) (s.reg y) n.toNat px py → t.pixel px py = !s.pixel px py) ∧
    (∀ px py, ¬ s.SpriteCovers (s.reg x) (s.reg y) n.toNat px py → t.pixel px py = s.pixel px py) ∧
    ((∃ px py, s.SpriteCovers (s.reg x) (s.reg y) n.toNat px py ∧ s.pixel px py = true) → t.reg 15 = 1) ∧
    ((¬ ∃ px py, s.SpriteCovers (s.reg x) (s.reg y) n.toNat px py ∧ s.pixel px py = true) → t.reg 15 = 0) ∧
    (∀ r, r ≠ 15 → t.reg r = s.reg r) ∧ UnchangedBut [.regs, .display] s t

/-- R273, an inference of the spec from R270 to R272: the same sprite drawn at the same place on what the first draw
left restores the framebuffer, and the second draw's VF is 1 exactly if the first draw turned a pixel on. -/
def Obligations.DrawingTwiceRestoresTheFrame : Prop :=
  ∀ (x y : Reg) (n : Nibble) (s t u : State), exec (.drw x y n) s = .next t →
    (∀ px py, u.pixel px py = t.pixel px py) → (∀ a, u.memRead a = s.memRead a) → u.i = s.i →
    u.reg x = s.reg x → u.reg y = s.reg y →
    ∃ v, exec (.drw x y n) u = .next v ∧ (∀ px py, v.pixel px py = s.pixel px py) ∧
      (v.reg 15 = 1 ↔ ∃ px py, s.pixel px py = false ∧ t.pixel px py = true)
end

