-- ==== Sys2Proof/Laws/Decode.lean ====
section
/-! SUPPORT. The fields of an encoded word, and what a row's match says of a word's fields. -/

namespace Sys2Proof

/-! ## Fields as numbers -/

theorem fieldFamily_toNat (w : Word) : (fieldFamily w).toNat = w.toNat / 4096 % 16 := by
  simp [fieldFamily, BitVec.extractLsb'_toNat, Nat.shiftRight_eq_div_pow]

theorem fieldX_val (w : Word) : (fieldX w).val = w.toNat / 256 % 16 := by
  change (w.extractLsb' 8 4).toNat = _
  simp [BitVec.extractLsb'_toNat, Nat.shiftRight_eq_div_pow]

theorem fieldY_val (w : Word) : (fieldY w).val = w.toNat / 16 % 16 := by
  change (w.extractLsb' 4 4).toNat = _
  simp [BitVec.extractLsb'_toNat, Nat.shiftRight_eq_div_pow]

theorem fieldMid_toNat (w : Word) : (fieldMid w).toNat = w.toNat / 16 % 16 := by
  simp [fieldMid, BitVec.extractLsb'_toNat, Nat.shiftRight_eq_div_pow]

theorem fieldN_toNat (w : Word) : (fieldN w).toNat = w.toNat % 16 := by
  simp [fieldN, BitVec.extractLsb'_toNat]

theorem fieldKK_toNat (w : Word) : (fieldKK w).toNat = w.toNat % 256 := by
  simp [fieldKK, BitVec.extractLsb'_toNat]

theorem fieldNNN_toNat (w : Word) : (fieldNNN w).toNat = w.toNat % 4096 := by
  simp [fieldNNN, BitVec.extractLsb'_toNat]

theorem fieldOuter_toNat (w : Word) : (fieldOuter w).toNat = w.toNat / 16 % 256 := by
  simp [fieldOuter, BitVec.extractLsb'_toNat, Nat.shiftRight_eq_div_pow]

/-! ## Forms as numbers -/

theorem formXNN_toNat (f : Nibble) (x : Reg) (m l : Nibble) :
    (formXNN f x m l).toNat = f.toNat * 4096 + x.val * 256 + m.toNat * 16 + l.toNat := by
  have := x.isLt
  have := m.isLt
  have := l.isLt
  simp only [formXNN, BitVec.toNat_append, BitVec.toNat_ofFin]
  rw [← Nat.shiftLeft_add_eq_or_of_lt (by omega), ← Nat.shiftLeft_add_eq_or_of_lt (by omega),
    ← Nat.shiftLeft_add_eq_or_of_lt (by omega)]
  simp only [Nat.shiftLeft_eq]
  omega

theorem formXYN_toNat (f : Nibble) (x y : Reg) (l : Nibble) :
    (formXYN f x y l).toNat = f.toNat * 4096 + x.val * 256 + y.val * 16 + l.toNat :=
  formXNN_toNat f x (BitVec.ofFin y) l

theorem formXK_toNat (f : Nibble) (x : Reg) (kk : Byte) :
    (formXK f x kk).toNat = f.toNat * 4096 + x.val * 256 + kk.toNat := by
  have := x.isLt
  have := kk.isLt
  simp only [formXK, BitVec.toNat_append, BitVec.toNat_ofFin]
  rw [← Nat.shiftLeft_add_eq_or_of_lt (by omega), ← Nat.shiftLeft_add_eq_or_of_lt (by omega)]
  simp only [Nat.shiftLeft_eq]
  omega

theorem formA_toNat (f : Nibble) (nnn : Addr) : (formA f nnn).toNat = f.toNat * 4096 + nnn.toNat := by
  have := nnn.isLt
  simp only [formA, BitVec.toNat_append]
  rw [← Nat.shiftLeft_add_eq_or_of_lt (by omega)]
  simp only [Nat.shiftLeft_eq]

theorem formZ_toNat (o : Byte) (l : Nibble) : (formZ o l).toNat = o.toNat * 16 + l.toNat := by
  have := o.isLt
  have := l.isLt
  simp only [formZ, BitVec.toNat_append]
  rw [← Nat.shiftLeft_add_eq_or_of_lt (by omega), ← Nat.shiftLeft_add_eq_or_of_lt (by omega)]
  simp only [Nat.shiftLeft_eq, BitVec.toNat_ofNat]
  omega

/-! ## Fields of a form -/

section
variable (f : Nibble) (x : Reg) (m l : Nibble) (kk : Byte) (nnn : Addr) (o : Byte)

@[simp] theorem fieldFamily_formXNN : fieldFamily (formXNN f x m l) = f := by
  apply BitVec.eq_of_toNat_eq
  rw [fieldFamily_toNat, formXNN_toNat]
  have := f.isLt
  have := x.isLt
  have := m.isLt
  have := l.isLt
  omega

@[simp] theorem fieldX_formXNN : fieldX (formXNN f x m l) = x := by
  apply Fin.ext
  have := f.isLt
  have := m.isLt
  have := l.isLt
  rw [fieldX_val, formXNN_toNat]
  omega

@[simp] theorem fieldY_formXNN : fieldY (formXNN f x m l) = m.toFin := by
  apply Fin.ext
  change _ = m.toNat
  have := x.isLt
  have := m.isLt
  have := l.isLt
  rw [fieldY_val, formXNN_toNat]
  omega

@[simp] theorem fieldMid_formXNN : fieldMid (formXNN f x m l) = m := by
  apply BitVec.eq_of_toNat_eq
  have := m.isLt
  have := l.isLt
  rw [fieldMid_toNat, formXNN_toNat]
  omega

@[simp] theorem fieldN_formXNN : fieldN (formXNN f x m l) = l := by
  apply BitVec.eq_of_toNat_eq
  have := l.isLt
  rw [fieldN_toNat, formXNN_toNat]
  omega

@[simp] theorem fieldFamily_formXK : fieldFamily (formXK f x kk) = f := by
  apply BitVec.eq_of_toNat_eq
  have := f.isLt
  have := x.isLt
  have := kk.isLt
  rw [fieldFamily_toNat, formXK_toNat]
  omega

@[simp] theorem fieldX_formXK : fieldX (formXK f x kk) = x := by
  apply Fin.ext
  have := f.isLt
  have := kk.isLt
  rw [fieldX_val, formXK_toNat]
  omega

@[simp] theorem fieldKK_formXK : fieldKK (formXK f x kk) = kk := by
  apply BitVec.eq_of_toNat_eq
  have := kk.isLt
  rw [fieldKK_toNat, formXK_toNat]
  omega

@[simp] theorem fieldFamily_formA : fieldFamily (formA f nnn) = f := by
  apply BitVec.eq_of_toNat_eq
  have := f.isLt
  have := nnn.isLt
  rw [fieldFamily_toNat, formA_toNat]
  omega

@[simp] theorem fieldNNN_formA : fieldNNN (formA f nnn) = nnn := by
  apply BitVec.eq_of_toNat_eq
  have := nnn.isLt
  rw [fieldNNN_toNat, formA_toNat]
  omega

@[simp] theorem fieldFamily_formZ : fieldFamily (formZ o l) = 0x0 := by
  apply BitVec.eq_of_toNat_eq
  have := o.isLt
  have := l.isLt
  rw [fieldFamily_toNat, formZ_toNat]
  change _ = 0
  omega

@[simp] theorem fieldOuter_formZ : fieldOuter (formZ o l) = o := by
  apply BitVec.eq_of_toNat_eq
  have := o.isLt
  have := l.isLt
  rw [fieldOuter_toNat, formZ_toNat]
  omega

@[simp] theorem fieldN_formZ : fieldN (formZ o l) = l := by
  apply BitVec.eq_of_toNat_eq
  have := l.isLt
  rw [fieldN_toNat, formZ_toNat]
  omega

end

/-! ## Bytes of a word -/

@[simp] theorem wordOfBytes_high_low (w : Word) : wordOfBytes (highByte w) (lowByte w) = w := by
  apply BitVec.eq_of_toNat_eq
  have := w.isLt
  simp only [wordOfBytes, highByte, lowByte, BitVec.toNat_append, BitVec.extractLsb'_toNat]
  rw [← Nat.shiftLeft_add_eq_or_of_lt (by omega)]
  simp only [Nat.shiftLeft_eq, Nat.shiftRight_eq_div_pow]
  omega

theorem wordOfBytes_toNat (hi lo : Byte) : (wordOfBytes hi lo).toNat = hi.toNat * 256 + lo.toNat := by
  have := hi.isLt
  have := lo.isLt
  simp only [wordOfBytes, BitVec.toNat_append]
  rw [← Nat.shiftLeft_add_eq_or_of_lt (by omega)]
  simp only [Nat.shiftLeft_eq]

/-! ## What a match says -/

theorem family_of_match {w m v : Word} (h : w &&& m = v) : fieldFamily w &&& fieldFamily m = fieldFamily v := by
  rw [← h]
  simp only [fieldFamily, BitVec.extractLsb'_and]

theorem low_of_match {w m v : Word} (h : w &&& m = v) : fieldN w &&& fieldN m = fieldN v := by
  rw [← h]
  simp only [fieldN, BitVec.extractLsb'_and]

theorem lowByte_of_match {w m v : Word} (h : w &&& m = v) : fieldKK w &&& fieldKK m = fieldKK v := by
  rw [← h]
  simp only [fieldKK, BitVec.extractLsb'_and]

theorem and_full_nibble (a : Nibble) : a &&& 0xF = a := by
  rw [show (0xF : Nibble) = BitVec.allOnes 4 from rfl, BitVec.and_allOnes]

theorem and_full_byte (a : Byte) : a &&& 0xFF = a := by
  rw [show (0xFF : Byte) = BitVec.allOnes 8 from rfl, BitVec.and_allOnes]

/-- A word that matches under 0xF000 is of the match's family. -/
theorem family_of_match_F000 {w v : Word} (h : w &&& 0xF000 = v) : fieldFamily w = fieldFamily v := by
  have := family_of_match h
  rwa [show fieldFamily 0xF000 = 0xF from rfl, and_full_nibble] at this

/-- A word that matches under 0xF00F has the match's family and low nibble. -/
theorem fields_of_match_F00F {w v : Word} (h : w &&& 0xF00F = v) :
    fieldFamily w = fieldFamily v ∧ fieldN w = fieldN v := by
  have h1 := family_of_match h
  have h2 := low_of_match h
  rw [show fieldFamily 0xF00F = 0xF from rfl, and_full_nibble] at h1
  rw [show fieldN 0xF00F = 0xF from rfl, and_full_nibble] at h2
  exact ⟨h1, h2⟩

/-- A word that matches under 0xF0FF has the match's family and low byte. -/
theorem fields_of_match_F0FF {w v : Word} (h : w &&& 0xF0FF = v) :
    fieldFamily w = fieldFamily v ∧ fieldKK w = fieldKK v := by
  have h1 := family_of_match h
  have h2 := lowByte_of_match h
  rw [show fieldFamily 0xF0FF = 0xF from rfl, and_full_nibble] at h1
  rw [show fieldKK 0xF0FF = 0xFF from rfl, and_full_byte] at h2
  exact ⟨h1, h2⟩

/-! ## Which fields select which instruction (30_encoding.md R105 to R110) -/

variable {w : Word}

theorem decodeWord_jp (h : fieldFamily w = 0x1) : decodeWord w = .jp (fieldNNN w) := by
  rw [decodeWord, h]
  rfl

theorem decodeWord_call (h : fieldFamily w = 0x2) : decodeWord w = .call (fieldNNN w) := by
  rw [decodeWord, h]
  rfl

theorem decodeWord_seImm (h : fieldFamily w = 0x3) : decodeWord w = .seImm (fieldX w) (fieldKK w) := by
  rw [decodeWord, h]
  rfl

theorem decodeWord_sneImm (h : fieldFamily w = 0x4) : decodeWord w = .sneImm (fieldX w) (fieldKK w) := by
  rw [decodeWord, h]
  rfl

theorem decodeWord_seReg (h : fieldFamily w = 0x5) : decodeWord w = .seReg (fieldX w) (fieldY w) (fieldN w) := by
  rw [decodeWord, h]
  rfl

theorem decodeWord_ldImm (h : fieldFamily w = 0x6) : decodeWord w = .ldImm (fieldX w) (fieldKK w) := by
  rw [decodeWord, h]
  rfl

theorem decodeWord_addImm (h : fieldFamily w = 0x7) : decodeWord w = .addImm (fieldX w) (fieldKK w) := by
  rw [decodeWord, h]
  rfl

theorem decodeWord_sneReg (h : fieldFamily w = 0x9) : decodeWord w = .sneReg (fieldX w) (fieldY w) (fieldN w) := by
  rw [decodeWord, h]
  rfl

theorem decodeWord_ldI (h : fieldFamily w = 0xA) : decodeWord w = .ldI (fieldNNN w) := by
  rw [decodeWord, h]
  rfl

theorem decodeWord_jpV0 (h : fieldFamily w = 0xB) : decodeWord w = .jpV0 (fieldNNN w) := by
  rw [decodeWord, h]
  rfl

theorem decodeWord_rnd (h : fieldFamily w = 0xC) : decodeWord w = .rnd (fieldX w) (fieldKK w) := by
  rw [decodeWord, h]
  rfl

theorem decodeWord_drw (h : fieldFamily w = 0xD) : decodeWord w = .drw (fieldX w) (fieldY w) (fieldN w) := by
  rw [decodeWord, h]
  rfl

theorem decodeWord_family0 (h : fieldFamily w = 0x0) : decodeWord w = decodeFamily0 w := by
  rw [decodeWord, h]
  rfl

theorem decodeWord_family8 (h : fieldFamily w = 0x8) : decodeWord w = decodeFamily8 w := by
  rw [decodeWord, h]
  rfl

theorem decodeWord_familyE (h : fieldFamily w = 0xE) : decodeWord w = decodeFamilyE w := by
  rw [decodeWord, h]
  rfl

theorem decodeWord_familyF (h : fieldFamily w = 0xF) : decodeWord w = decodeFamilyF w := by
  rw [decodeWord, h]
  rfl

theorem decodeWord_cls (h : fieldFamily w = 0x0) (hn : fieldN w = 0x0) : decodeWord w = .cls (fieldOuter w) := by
  rw [decodeWord_family0 h, decodeFamily0, hn]
  rfl

theorem decodeWord_ret (h : fieldFamily w = 0x0) (hn : fieldN w = 0xE) : decodeWord w = .ret (fieldOuter w) := by
  rw [decodeWord_family0 h, decodeFamily0, hn]
  rfl

theorem decodeWord_ldReg (h : fieldFamily w = 0x8) (hn : fieldN w = 0x0) : decodeWord w = .ldReg (fieldX w) (fieldY w) := by
  rw [decodeWord_family8 h, decodeFamily8, hn]
  rfl

theorem decodeWord_orReg (h : fieldFamily w = 0x8) (hn : fieldN w = 0x1) : decodeWord w = .orReg (fieldX w) (fieldY w) := by
  rw [decodeWord_family8 h, decodeFamily8, hn]
  rfl

theorem decodeWord_andReg (h : fieldFamily w = 0x8) (hn : fieldN w = 0x2) : decodeWord w = .andReg (fieldX w) (fieldY w) := by
  rw [decodeWord_family8 h, decodeFamily8, hn]
  rfl

theorem decodeWord_xorReg (h : fieldFamily w = 0x8) (hn : fieldN w = 0x3) : decodeWord w = .xorReg (fieldX w) (fieldY w) := by
  rw [decodeWord_family8 h, decodeFamily8, hn]
  rfl

theorem decodeWord_addReg (h : fieldFamily w = 0x8) (hn : fieldN w = 0x4) : decodeWord w = .addReg (fieldX w) (fieldY w) := by
  rw [decodeWord_family8 h, decodeFamily8, hn]
  rfl

theorem decodeWord_subReg (h : fieldFamily w = 0x8) (hn : fieldN w = 0x5) : decodeWord w = .subReg (fieldX w) (fieldY w) := by
  rw [decodeWord_family8 h, decodeFamily8, hn]
  rfl

theorem decodeWord_shr (h : fieldFamily w = 0x8) (hn : fieldN w = 0x6) : decodeWord w = .shr (fieldX w) (fieldMid w) := by
  rw [decodeWord_family8 h, decodeFamily8, hn]
  rfl

theorem decodeWord_subnReg (h : fieldFamily w = 0x8) (hn : fieldN w = 0x7) : decodeWord w = .subnReg (fieldX w) (fieldY w) := by
  rw [decodeWord_family8 h, decodeFamily8, hn]
  rfl

theorem decodeWord_shl (h : fieldFamily w = 0x8) (hn : fieldN w = 0xE) : decodeWord w = .shl (fieldX w) (fieldMid w) := by
  rw [decodeWord_family8 h, decodeFamily8, hn]
  rfl

theorem decodeWord_skp (h : fieldFamily w = 0xE) (hn : fieldN w = 0xE) : decodeWord w = .skp (fieldX w) (fieldMid w) := by
  rw [decodeWord_familyE h, decodeFamilyE, hn]
  rfl

theorem decodeWord_sknp (h : fieldFamily w = 0xE) (hn : fieldN w = 0x1) : decodeWord w = .sknp (fieldX w) (fieldMid w) := by
  rw [decodeWord_familyE h, decodeFamilyE, hn]
  rfl

theorem decodeWord_ldVxDt (h : fieldFamily w = 0xF) (hk : fieldKK w = 0x07) : decodeWord w = .ldVxDt (fieldX w) := by
  rw [decodeWord_familyF h, decodeFamilyF, hk]
  rfl

theorem decodeWord_ldVxK (h : fieldFamily w = 0xF) (hk : fieldKK w = 0x0A) : decodeWord w = .ldVxK (fieldX w) := by
  rw [decodeWord_familyF h, decodeFamilyF, hk]
  rfl

theorem decodeWord_ldDtVx (h : fieldFamily w = 0xF) (hk : fieldKK w = 0x15) : decodeWord w = .ldDtVx (fieldX w) := by
  rw [decodeWord_familyF h, decodeFamilyF, hk]
  rfl

theorem decodeWord_ldStVx (h : fieldFamily w = 0xF) (hk : fieldKK w = 0x18) : decodeWord w = .ldStVx (fieldX w) := by
  rw [decodeWord_familyF h, decodeFamilyF, hk]
  rfl

theorem decodeWord_addI (h : fieldFamily w = 0xF) (hk : fieldKK w = 0x1E) : decodeWord w = .addI (fieldX w) := by
  rw [decodeWord_familyF h, decodeFamilyF, hk]
  rfl

theorem decodeWord_ldF (h : fieldFamily w = 0xF) (hk : fieldKK w = 0x29) : decodeWord w = .ldF (fieldX w) := by
  rw [decodeWord_familyF h, decodeFamilyF, hk]
  rfl

theorem decodeWord_ldB (h : fieldFamily w = 0xF) (hk : fieldKK w = 0x33) : decodeWord w = .ldB (fieldX w) := by
  rw [decodeWord_familyF h, decodeFamilyF, hk]
  rfl

theorem decodeWord_storeRegs (h : fieldFamily w = 0xF) (hk : fieldKK w = 0x55) : decodeWord w = .storeRegs (fieldX w) := by
  rw [decodeWord_familyF h, decodeFamilyF, hk]
  rfl

theorem decodeWord_loadRegs (h : fieldFamily w = 0xF) (hk : fieldKK w = 0x65) : decodeWord w = .loadRegs (fieldX w) := by
  rw [decodeWord_familyF h, decodeFamilyF, hk]
  rfl

/-! ## Every word -/

/-- A word of the NOP space decodes to NOP (30_encoding.md R112). -/
theorem decodeWord_nop (h : isNopWord w = true) : decodeWord w = .nop w := by
  simp only [isNopWord] at h
  unfold decodeWord
  split <;> simp_all [decodeFamily0, decodeFamily8, decodeFamilyE, decodeFamilyF]
  all_goals split <;> simp_all

theorem family_F_of_notMem : ∀ a : Nibble,
    a ∉ ([0x0, 0x1, 0x2, 0x3, 0x4, 0x5, 0x6, 0x7, 0x8, 0x9, 0xA, 0xB, 0xC, 0xD, 0xE] : List Nibble) → a = 0xF := by
  decide

theorem nopNibble_of_notMem : ∀ a : Nibble, a ∉ ([0x0, 0x1, 0x2, 0x3, 0x4, 0x5, 0x6, 0x7, 0xE] : List Nibble) →
    (((0x8 : Nibble) ≤ a && a ≤ 0xD) || a = 0xF) = true := by
  decide

/-- What a word can decode to, and the fields that make it so: every claim about all words starts here. -/
theorem decodeWord_cases (w : Word) (P : Instr → Prop)
    (cls : fieldFamily w = 0x0 → fieldN w = 0x0 → P (.cls (fieldOuter w)))
    (ret : fieldFamily w = 0x0 → fieldN w = 0xE → P (.ret (fieldOuter w)))
    (jp : fieldFamily w = 0x1 → P (.jp (fieldNNN w)))
    (call : fieldFamily w = 0x2 → P (.call (fieldNNN w)))
    (seImm : fieldFamily w = 0x3 → P (.seImm (fieldX w) (fieldKK w)))
    (sneImm : fieldFamily w = 0x4 → P (.sneImm (fieldX w) (fieldKK w)))
    (seReg : fieldFamily w = 0x5 → P (.seReg (fieldX w) (fieldY w) (fieldN w)))
    (ldImm : fieldFamily w = 0x6 → P (.ldImm (fieldX w) (fieldKK w)))
    (addImm : fieldFamily w = 0x7 → P (.addImm (fieldX w) (fieldKK w)))
    (ldReg : fieldFamily w = 0x8 → fieldN w = 0x0 → P (.ldReg (fieldX w) (fieldY w)))
    (orReg : fieldFamily w = 0x8 → fieldN w = 0x1 → P (.orReg (fieldX w) (fieldY w)))
    (andReg : fieldFamily w = 0x8 → fieldN w = 0x2 → P (.andReg (fieldX w) (fieldY w)))
    (xorReg : fieldFamily w = 0x8 → fieldN w = 0x3 → P (.xorReg (fieldX w) (fieldY w)))
    (addReg : fieldFamily w = 0x8 → fieldN w = 0x4 → P (.addReg (fieldX w) (fieldY w)))
    (subReg : fieldFamily w = 0x8 → fieldN w = 0x5 → P (.subReg (fieldX w) (fieldY w)))
    (shr : fieldFamily w = 0x8 → fieldN w = 0x6 → P (.shr (fieldX w) (fieldMid w)))
    (subnReg : fieldFamily w = 0x8 → fieldN w = 0x7 → P (.subnReg (fieldX w) (fieldY w)))
    (shl : fieldFamily w = 0x8 → fieldN w = 0xE → P (.shl (fieldX w) (fieldMid w)))
    (sneReg : fieldFamily w = 0x9 → P (.sneReg (fieldX w) (fieldY w) (fieldN w)))
    (ldI : fieldFamily w = 0xA → P (.ldI (fieldNNN w)))
    (jpV0 : fieldFamily w = 0xB → P (.jpV0 (fieldNNN w)))
    (rnd : fieldFamily w = 0xC → P (.rnd (fieldX w) (fieldKK w)))
    (drw : fieldFamily w = 0xD → P (.drw (fieldX w) (fieldY w) (fieldN w)))
    (skp : fieldFamily w = 0xE → fieldN w = 0xE → P (.skp (fieldX w) (fieldMid w)))
    (sknp : fieldFamily w = 0xE → fieldN w = 0x1 → P (.sknp (fieldX w) (fieldMid w)))
    (ldVxDt : fieldFamily w = 0xF → fieldKK w = 0x07 → P (.ldVxDt (fieldX w)))
    (ldVxK : fieldFamily w = 0xF → fieldKK w = 0x0A → P (.ldVxK (fieldX w)))
    (ldDtVx : fieldFamily w = 0xF → fieldKK w = 0x15 → P (.ldDtVx (fieldX w)))
    (ldStVx : fieldFamily w = 0xF → fieldKK w = 0x18 → P (.ldStVx (fieldX w)))
    (addI : fieldFamily w = 0xF → fieldKK w = 0x1E → P (.addI (fieldX w)))
    (ldF : fieldFamily w = 0xF → fieldKK w = 0x29 → P (.ldF (fieldX w)))
    (ldB : fieldFamily w = 0xF → fieldKK w = 0x33 → P (.ldB (fieldX w)))
    (storeRegs : fieldFamily w = 0xF → fieldKK w = 0x55 → P (.storeRegs (fieldX w)))
    (loadRegs : fieldFamily w = 0xF → fieldKK w = 0x65 → P (.loadRegs (fieldX w)))
    (nop : isNopWord w = true → P (.nop w)) : P (decodeWord w) := by
  unfold decodeWord
  split
  · unfold decodeFamily0
    split
    · exact cls ‹_› ‹_›
    · exact ret ‹_› ‹_›
    · apply nop
      simp_all [isNopWord]
  · exact jp ‹_›
  · exact call ‹_›
  · exact seImm ‹_›
  · exact sneImm ‹_›
  · exact seReg ‹_›
  · exact ldImm ‹_›
  · exact addImm ‹_›
  · unfold decodeFamily8
    split
    · exact ldReg ‹_› ‹_›
    · exact orReg ‹_› ‹_›
    · exact andReg ‹_› ‹_›
    · exact xorReg ‹_› ‹_›
    · exact addReg ‹_› ‹_›
    · exact subReg ‹_› ‹_›
    · exact shr ‹_› ‹_›
    · exact subnReg ‹_› ‹_›
    · exact shl ‹_› ‹_›
    · apply nop
      have hf : fieldFamily w = 0x8 := ‹_›
      simp only [isNopWord, hf]
      exact nopNibble_of_notMem _ (by simp_all)
  · exact sneReg ‹_›
  · exact ldI ‹_›
  · exact jpV0 ‹_›
  · exact rnd ‹_›
  · exact drw ‹_›
  · unfold decodeFamilyE
    split
    · exact skp ‹_› ‹_›
    · exact sknp ‹_› ‹_›
    · apply nop
      simp_all [isNopWord]
  · have hF : fieldFamily w = 0xF := family_F_of_notMem _ (by simp_all)
    unfold decodeFamilyF
    split
    · exact ldVxDt ‹_› ‹_›
    · exact ldVxK ‹_› ‹_›
    · exact ldDtVx ‹_› ‹_›
    · exact ldStVx ‹_› ‹_›
    · exact addI ‹_› ‹_›
    · exact ldF ‹_› ‹_›
    · exact ldB ‹_› ‹_›
    · exact storeRegs ‹_› ‹_›
    · exact loadRegs ‹_› ‹_›
    · apply nop
      simp_all [isNopWord]

/-! ## A word is the form of its fields -/

theorem formA_fields {f : Nibble} (h : fieldFamily w = f) : formA f (fieldNNN w) = w := by
  apply BitVec.eq_of_toNat_eq
  have := w.isLt
  rw [formA_toNat, ← h, fieldFamily_toNat, fieldNNN_toNat]
  omega

theorem formXK_fields {f : Nibble} {k : Byte} (h : fieldFamily w = f) (hk : fieldKK w = k) :
    formXK f (fieldX w) k = w := by
  apply BitVec.eq_of_toNat_eq
  have := w.isLt
  rw [formXK_toNat, ← h, ← hk, fieldFamily_toNat, fieldX_val, fieldKK_toNat]
  omega

theorem formXYN_fields {f n : Nibble} (h : fieldFamily w = f) (hn : fieldN w = n) :
    formXYN f (fieldX w) (fieldY w) n = w := by
  apply BitVec.eq_of_toNat_eq
  have := w.isLt
  rw [formXYN_toNat, ← h, ← hn, fieldFamily_toNat, fieldX_val, fieldY_val, fieldN_toNat]
  omega

theorem formXNN_fields {f n : Nibble} (h : fieldFamily w = f) (hn : fieldN w = n) :
    formXNN f (fieldX w) (fieldMid w) n = w := by
  apply BitVec.eq_of_toNat_eq
  have := w.isLt
  rw [formXNN_toNat, ← h, ← hn, fieldFamily_toNat, fieldX_val, fieldMid_toNat, fieldN_toNat]
  omega

theorem formZ_fields {n : Nibble} (h : fieldFamily w = 0x0) (hn : fieldN w = n) : formZ (fieldOuter w) n = w := by
  apply BitVec.eq_of_toNat_eq
  have := w.isLt
  have h0 := congrArg BitVec.toNat h
  rw [fieldFamily_toNat] at h0
  change _ = 0 at h0
  rw [formZ_toNat, ← hn, fieldOuter_toNat, fieldN_toNat]
  omega

end Sys2Proof
end

