-- ==== Sys2Proof/Laws/Memory.lean ====
section
/-! SUPPORT. The laws of memory: a write is read back, leaves every other address alone, and keeps the canonical form. -/

namespace Sys2Proof.Machine

theorem Memory.lookup_erase_self (m : List Host.Cell) (a : Nat) : (Memory.erase m a).lookup a = none := by
  induction m with
  | nil => rfl
  | cons c m ih =>
    obtain ⟨k, b⟩ := c
    by_cases h : k = a
    · simpa [Memory.erase, h] using ih
    · have h' : (a == k) = false := by simp; omega
      simpa [Memory.erase, h, List.lookup_cons, h'] using ih

theorem Memory.lookup_erase_ne (m : List Host.Cell) {a c : Nat} (hc : c ≠ a) :
    (Memory.erase m a).lookup c = m.lookup c := by
  induction m with
  | nil => rfl
  | cons d m ih =>
    obtain ⟨k, b⟩ := d
    by_cases h : k = a
    · have h' : (c == a) = false := by simp [hc]
      simpa [Memory.erase, h, List.lookup_cons, h'] using ih
    · cases h' : (c == k) <;> simp_all [Memory.erase, List.lookup_cons]

theorem Memory.lookup_insert_self {m : List Host.Cell} {a : Nat} (b : Byte) (h : m.lookup a = none) :
    (Memory.insert (a, b) m).lookup a = some b := by
  induction m with
  | nil => simp [Memory.insert]
  | cons d m ih =>
    obtain ⟨k, e⟩ := d
    cases hk : (a == k) with
    | true => simp [List.lookup_cons, hk] at h
    | false =>
      simp only [List.lookup_cons, hk] at h
      by_cases hl : a < k <;> simp [Memory.insert, hl, List.lookup_cons, hk, ih h]

theorem Memory.lookup_insert_ne (m : List Host.Cell) {a c : Nat} (b : Byte) (hc : c ≠ a) :
    (Memory.insert (a, b) m).lookup c = m.lookup c := by
  have hc' : (c == a) = false := by simp [hc]
  induction m with
  | nil => simp [Memory.insert, List.lookup_cons, hc']
  | cons d m ih =>
    obtain ⟨k, e⟩ := d
    by_cases hl : a < k <;> cases hk : (c == k) <;> simp [Memory.insert, hl, List.lookup_cons, hk, hc', ih]

/-- Reading after a write: the byte written at its address, and what was there before everywhere else. -/
theorem Memory.read_write (m : List Host.Cell) (a c : Nat) (b : Byte) :
    Memory.read (Memory.write m a b) c = if c = a then b else Memory.read m c := by
  unfold Memory.write Memory.read
  by_cases hc : c = a
  · subst hc
    by_cases hb : b = initialByte c
    · simp [hb, Memory.lookup_erase_self]
    · simp [hb, Memory.lookup_insert_self b (Memory.lookup_erase_self m c)]
  · by_cases hb : b = initialByte a
    · simp [hb, hc, Memory.lookup_erase_ne m hc]
    · simp [hb, hc, Memory.lookup_insert_ne _ b hc, Memory.lookup_erase_ne m hc]

theorem Memory.mem_insert {c d : Host.Cell} {m : List Host.Cell} : d ∈ Memory.insert c m ↔ d = c ∨ d ∈ m := by
  induction m with
  | nil => simp [Memory.insert]
  | cons e m ih =>
    by_cases hl : c.1 < e.1 <;> simp [Memory.insert, hl, ih, or_left_comm]

theorem Memory.mem_erase {d : Host.Cell} {m : List Host.Cell} {a : Nat} : d ∈ Memory.erase m a ↔ d ∈ m ∧ d.1 ≠ a := by
  simp [Memory.erase]

theorem Memory.rising_erase {m : List Host.Cell} (a : Nat) (h : Memory.rising m = true) :
    Memory.rising (Memory.erase m a) = true := by
  induction m with
  | nil => rfl
  | cons c m ih =>
    simp only [Memory.rising, Bool.and_eq_true, List.all_eq_true, decide_eq_true_eq] at h
    by_cases hc : c.1 = a
    · simpa [Memory.erase, hc] using ih h.2
    · have : Memory.erase (c :: m) a = c :: Memory.erase m a := by simp [Memory.erase, hc]
      rw [this]
      simp only [Memory.rising, Bool.and_eq_true, List.all_eq_true, decide_eq_true_eq]
      exact ⟨fun d hd => h.1 d (Memory.mem_erase.1 hd).1, ih h.2⟩

theorem Memory.rising_insert {m : List Host.Cell} {c : Host.Cell} (h : Memory.rising m = true)
    (hc : ∀ d ∈ m, d.1 ≠ c.1) : Memory.rising (Memory.insert c m) = true := by
  induction m with
  | nil => rfl
  | cons e m ih =>
    simp only [Memory.rising, Bool.and_eq_true, List.all_eq_true, decide_eq_true_eq] at h
    by_cases hl : c.1 < e.1
    · simp only [Memory.insert, hl, if_true, Memory.rising, Bool.and_eq_true, List.all_eq_true, decide_eq_true_eq]
      refine ⟨fun d hd => ?_, h.1, h.2⟩
      rcases List.mem_cons.1 hd with rfl | hd
      · exact hl
      · exact lt_trans hl (h.1 d hd)
    · simp only [Memory.insert, hl, if_false, Memory.rising, Bool.and_eq_true, List.all_eq_true, decide_eq_true_eq]
      refine ⟨fun d hd => ?_, ih h.2 fun d hd => hc d (List.mem_cons_of_mem _ hd)⟩
      rcases Memory.mem_insert.1 hd with rfl | hd
      · have := hc e List.mem_cons_self
        omega
      · exact h.1 d hd

theorem Memory.wf_nil : Memory.wf [] = true := rfl

/-- A write within the address space keeps the canonical form. -/
theorem Memory.wf_write {m : List Host.Cell} {a : Nat} (b : Byte) (ha : a < Config.memSize) (h : Memory.wf m = true) :
    Memory.wf (Memory.write m a b) = true := by
  simp only [Memory.wf, Bool.and_eq_true, List.all_eq_true, decide_eq_true_eq] at h ⊢
  unfold Memory.write
  by_cases hb : b = initialByte a
  · rw [if_pos hb]
    exact ⟨Memory.rising_erase a h.1, fun d hd => h.2 d (Memory.mem_erase.1 hd).1⟩
  · rw [if_neg hb]
    refine ⟨Memory.rising_insert (Memory.rising_erase a h.1) fun d hd => (Memory.mem_erase.1 hd).2, fun d hd => ?_⟩
    rcases Memory.mem_insert.1 hd with rfl | hd
    · exact ⟨ha, by simpa using hb⟩
    · exact h.2 d (Memory.mem_erase.1 hd).1

end Sys2Proof.Machine
end

