-- ==== Sys2Proof/Laws/State.lean ====
section
/-! SUPPORT. One lemma per field per update of State. -/

namespace Sys2Proof.Machine

variable (s : State)

@[simp] theorem State.setReg_v (r : Reg) (b : Byte) : (s.setReg r b).v = s.v.set r.val b r.isLt := rfl
@[simp] theorem State.setReg_pc (r : Reg) (b : Byte) : (s.setReg r b).pc = s.pc := rfl
@[simp] theorem State.setReg_i (r : Reg) (b : Byte) : (s.setReg r b).i = s.i := rfl
@[simp] theorem State.setReg_sp (r : Reg) (b : Byte) : (s.setReg r b).sp = s.sp := rfl
@[simp] theorem State.setReg_stack (r : Reg) (b : Byte) : (s.setReg r b).stack = s.stack := rfl
@[simp] theorem State.setReg_dt (r : Reg) (b : Byte) : (s.setReg r b).dt = s.dt := rfl
@[simp] theorem State.setReg_st (r : Reg) (b : Byte) : (s.setReg r b).st = s.st := rfl
@[simp] theorem State.setReg_mem (r : Reg) (b : Byte) : (s.setReg r b).mem = s.mem := rfl
@[simp] theorem State.setReg_keys (r : Reg) (b : Byte) : (s.setReg r b).keys = s.keys := rfl
@[simp] theorem State.setReg_fb (r : Reg) (b : Byte) : (s.setReg r b).fb = s.fb := rfl
@[simp] theorem State.setReg_fault (r : Reg) (b : Byte) : (s.setReg r b).fault = s.fault := rfl
@[simp] theorem State.setReg_faultPc (r : Reg) (b : Byte) : (s.setReg r b).faultPc = s.faultPc := rfl
@[simp] theorem State.setReg_faultWord (r : Reg) (b : Byte) : (s.setReg r b).faultWord = s.faultWord := rfl
@[simp] theorem State.setReg_draws (r : Reg) (b : Byte) : (s.setReg r b).draws = s.draws := rfl

@[simp] theorem State.setPc_v (w : Word) : (s.setPc w).v = s.v := rfl
@[simp] theorem State.setPc_pc (w : Word) : (s.setPc w).pc = w := rfl
@[simp] theorem State.setPc_i (w : Word) : (s.setPc w).i = s.i := rfl
@[simp] theorem State.setPc_sp (w : Word) : (s.setPc w).sp = s.sp := rfl
@[simp] theorem State.setPc_stack (w : Word) : (s.setPc w).stack = s.stack := rfl
@[simp] theorem State.setPc_dt (w : Word) : (s.setPc w).dt = s.dt := rfl
@[simp] theorem State.setPc_st (w : Word) : (s.setPc w).st = s.st := rfl
@[simp] theorem State.setPc_mem (w : Word) : (s.setPc w).mem = s.mem := rfl
@[simp] theorem State.setPc_keys (w : Word) : (s.setPc w).keys = s.keys := rfl
@[simp] theorem State.setPc_fb (w : Word) : (s.setPc w).fb = s.fb := rfl
@[simp] theorem State.setPc_fault (w : Word) : (s.setPc w).fault = s.fault := rfl
@[simp] theorem State.setPc_faultPc (w : Word) : (s.setPc w).faultPc = s.faultPc := rfl
@[simp] theorem State.setPc_faultWord (w : Word) : (s.setPc w).faultWord = s.faultWord := rfl
@[simp] theorem State.setPc_draws (w : Word) : (s.setPc w).draws = s.draws := rfl

@[simp] theorem State.setI_v (w : Word) : (s.setI w).v = s.v := rfl
@[simp] theorem State.setI_pc (w : Word) : (s.setI w).pc = s.pc := rfl
@[simp] theorem State.setI_i (w : Word) : (s.setI w).i = w := rfl
@[simp] theorem State.setI_sp (w : Word) : (s.setI w).sp = s.sp := rfl
@[simp] theorem State.setI_stack (w : Word) : (s.setI w).stack = s.stack := rfl
@[simp] theorem State.setI_dt (w : Word) : (s.setI w).dt = s.dt := rfl
@[simp] theorem State.setI_st (w : Word) : (s.setI w).st = s.st := rfl
@[simp] theorem State.setI_mem (w : Word) : (s.setI w).mem = s.mem := rfl
@[simp] theorem State.setI_keys (w : Word) : (s.setI w).keys = s.keys := rfl
@[simp] theorem State.setI_fb (w : Word) : (s.setI w).fb = s.fb := rfl
@[simp] theorem State.setI_fault (w : Word) : (s.setI w).fault = s.fault := rfl
@[simp] theorem State.setI_faultPc (w : Word) : (s.setI w).faultPc = s.faultPc := rfl
@[simp] theorem State.setI_faultWord (w : Word) : (s.setI w).faultWord = s.faultWord := rfl
@[simp] theorem State.setI_draws (w : Word) : (s.setI w).draws = s.draws := rfl

@[simp] theorem State.setDt_v (b : Byte) : (s.setDt b).v = s.v := rfl
@[simp] theorem State.setDt_pc (b : Byte) : (s.setDt b).pc = s.pc := rfl
@[simp] theorem State.setDt_i (b : Byte) : (s.setDt b).i = s.i := rfl
@[simp] theorem State.setDt_sp (b : Byte) : (s.setDt b).sp = s.sp := rfl
@[simp] theorem State.setDt_stack (b : Byte) : (s.setDt b).stack = s.stack := rfl
@[simp] theorem State.setDt_dt (b : Byte) : (s.setDt b).dt = b := rfl
@[simp] theorem State.setDt_st (b : Byte) : (s.setDt b).st = s.st := rfl
@[simp] theorem State.setDt_mem (b : Byte) : (s.setDt b).mem = s.mem := rfl
@[simp] theorem State.setDt_keys (b : Byte) : (s.setDt b).keys = s.keys := rfl
@[simp] theorem State.setDt_fb (b : Byte) : (s.setDt b).fb = s.fb := rfl
@[simp] theorem State.setDt_fault (b : Byte) : (s.setDt b).fault = s.fault := rfl
@[simp] theorem State.setDt_faultPc (b : Byte) : (s.setDt b).faultPc = s.faultPc := rfl
@[simp] theorem State.setDt_faultWord (b : Byte) : (s.setDt b).faultWord = s.faultWord := rfl
@[simp] theorem State.setDt_draws (b : Byte) : (s.setDt b).draws = s.draws := rfl

@[simp] theorem State.setSt_v (b : Byte) : (s.setSt b).v = s.v := rfl
@[simp] theorem State.setSt_pc (b : Byte) : (s.setSt b).pc = s.pc := rfl
@[simp] theorem State.setSt_i (b : Byte) : (s.setSt b).i = s.i := rfl
@[simp] theorem State.setSt_sp (b : Byte) : (s.setSt b).sp = s.sp := rfl
@[simp] theorem State.setSt_stack (b : Byte) : (s.setSt b).stack = s.stack := rfl
@[simp] theorem State.setSt_dt (b : Byte) : (s.setSt b).dt = s.dt := rfl
@[simp] theorem State.setSt_st (b : Byte) : (s.setSt b).st = b := rfl
@[simp] theorem State.setSt_mem (b : Byte) : (s.setSt b).mem = s.mem := rfl
@[simp] theorem State.setSt_keys (b : Byte) : (s.setSt b).keys = s.keys := rfl
@[simp] theorem State.setSt_fb (b : Byte) : (s.setSt b).fb = s.fb := rfl
@[simp] theorem State.setSt_fault (b : Byte) : (s.setSt b).fault = s.fault := rfl
@[simp] theorem State.setSt_faultPc (b : Byte) : (s.setSt b).faultPc = s.faultPc := rfl
@[simp] theorem State.setSt_faultWord (b : Byte) : (s.setSt b).faultWord = s.faultWord := rfl
@[simp] theorem State.setSt_draws (b : Byte) : (s.setSt b).draws = s.draws := rfl

@[simp] theorem State.memWrite_v (a : Nat) (b : Byte) : (s.memWrite a b).v = s.v := rfl
@[simp] theorem State.memWrite_pc (a : Nat) (b : Byte) : (s.memWrite a b).pc = s.pc := rfl
@[simp] theorem State.memWrite_i (a : Nat) (b : Byte) : (s.memWrite a b).i = s.i := rfl
@[simp] theorem State.memWrite_sp (a : Nat) (b : Byte) : (s.memWrite a b).sp = s.sp := rfl
@[simp] theorem State.memWrite_stack (a : Nat) (b : Byte) : (s.memWrite a b).stack = s.stack := rfl
@[simp] theorem State.memWrite_dt (a : Nat) (b : Byte) : (s.memWrite a b).dt = s.dt := rfl
@[simp] theorem State.memWrite_st (a : Nat) (b : Byte) : (s.memWrite a b).st = s.st := rfl
@[simp] theorem State.memWrite_mem (a : Nat) (b : Byte) : (s.memWrite a b).mem = Memory.write s.mem (a % Config.memSize) b := rfl
@[simp] theorem State.memWrite_keys (a : Nat) (b : Byte) : (s.memWrite a b).keys = s.keys := rfl
@[simp] theorem State.memWrite_fb (a : Nat) (b : Byte) : (s.memWrite a b).fb = s.fb := rfl
@[simp] theorem State.memWrite_fault (a : Nat) (b : Byte) : (s.memWrite a b).fault = s.fault := rfl
@[simp] theorem State.memWrite_faultPc (a : Nat) (b : Byte) : (s.memWrite a b).faultPc = s.faultPc := rfl
@[simp] theorem State.memWrite_faultWord (a : Nat) (b : Byte) : (s.memWrite a b).faultWord = s.faultWord := rfl
@[simp] theorem State.memWrite_draws (a : Nat) (b : Byte) : (s.memWrite a b).draws = s.draws := rfl

@[simp] theorem State.setFrame_v (f : Frame) : (s.setFrame f).v = s.v := rfl
@[simp] theorem State.setFrame_pc (f : Frame) : (s.setFrame f).pc = s.pc := rfl
@[simp] theorem State.setFrame_i (f : Frame) : (s.setFrame f).i = s.i := rfl
@[simp] theorem State.setFrame_sp (f : Frame) : (s.setFrame f).sp = s.sp := rfl
@[simp] theorem State.setFrame_stack (f : Frame) : (s.setFrame f).stack = s.stack := rfl
@[simp] theorem State.setFrame_dt (f : Frame) : (s.setFrame f).dt = s.dt := rfl
@[simp] theorem State.setFrame_st (f : Frame) : (s.setFrame f).st = s.st := rfl
@[simp] theorem State.setFrame_mem (f : Frame) : (s.setFrame f).mem = s.mem := rfl
@[simp] theorem State.setFrame_keys (f : Frame) : (s.setFrame f).keys = s.keys := rfl
@[simp] theorem State.setFrame_fb (f : Frame) : (s.setFrame f).fb = f := rfl
@[simp] theorem State.setFrame_fault (f : Frame) : (s.setFrame f).fault = s.fault := rfl
@[simp] theorem State.setFrame_faultPc (f : Frame) : (s.setFrame f).faultPc = s.faultPc := rfl
@[simp] theorem State.setFrame_faultWord (f : Frame) : (s.setFrame f).faultWord = s.faultWord := rfl
@[simp] theorem State.setFrame_draws (f : Frame) : (s.setFrame f).draws = s.draws := rfl

@[simp] theorem State.nextDraw_v : (s.nextDraw).v = s.v := rfl
@[simp] theorem State.nextDraw_pc : (s.nextDraw).pc = s.pc := rfl
@[simp] theorem State.nextDraw_i : (s.nextDraw).i = s.i := rfl
@[simp] theorem State.nextDraw_sp : (s.nextDraw).sp = s.sp := rfl
@[simp] theorem State.nextDraw_stack : (s.nextDraw).stack = s.stack := rfl
@[simp] theorem State.nextDraw_dt : (s.nextDraw).dt = s.dt := rfl
@[simp] theorem State.nextDraw_st : (s.nextDraw).st = s.st := rfl
@[simp] theorem State.nextDraw_mem : (s.nextDraw).mem = s.mem := rfl
@[simp] theorem State.nextDraw_keys : (s.nextDraw).keys = s.keys := rfl
@[simp] theorem State.nextDraw_fb : (s.nextDraw).fb = s.fb := rfl
@[simp] theorem State.nextDraw_fault : (s.nextDraw).fault = s.fault := rfl
@[simp] theorem State.nextDraw_faultPc : (s.nextDraw).faultPc = s.faultPc := rfl
@[simp] theorem State.nextDraw_faultWord : (s.nextDraw).faultWord = s.faultWord := rfl
@[simp] theorem State.nextDraw_draws : (s.nextDraw).draws = s.draws + 1 := rfl

@[simp] theorem State.raise_v (c : FaultCode) (w : Word) : (s.raise c w).v = s.v := rfl
@[simp] theorem State.raise_pc (c : FaultCode) (w : Word) : (s.raise c w).pc = s.pc - 2 := rfl
@[simp] theorem State.raise_i (c : FaultCode) (w : Word) : (s.raise c w).i = s.i := rfl
@[simp] theorem State.raise_sp (c : FaultCode) (w : Word) : (s.raise c w).sp = s.sp := rfl
@[simp] theorem State.raise_stack (c : FaultCode) (w : Word) : (s.raise c w).stack = s.stack := rfl
@[simp] theorem State.raise_dt (c : FaultCode) (w : Word) : (s.raise c w).dt = s.dt := rfl
@[simp] theorem State.raise_st (c : FaultCode) (w : Word) : (s.raise c w).st = s.st := rfl
@[simp] theorem State.raise_mem (c : FaultCode) (w : Word) : (s.raise c w).mem = s.mem := rfl
@[simp] theorem State.raise_keys (c : FaultCode) (w : Word) : (s.raise c w).keys = s.keys := rfl
@[simp] theorem State.raise_fb (c : FaultCode) (w : Word) : (s.raise c w).fb = s.fb := rfl
@[simp] theorem State.raise_fault (c : FaultCode) (w : Word) : (s.raise c w).fault = c := rfl
@[simp] theorem State.raise_faultPc (c : FaultCode) (w : Word) : (s.raise c w).faultPc = s.pc - 2 := rfl
@[simp] theorem State.raise_faultWord (c : FaultCode) (w : Word) : (s.raise c w).faultWord = w := rfl
@[simp] theorem State.raise_draws (c : FaultCode) (w : Word) : (s.raise c w).draws = s.draws := rfl

@[simp] theorem State.clearLatch_v : (s.clearLatch).v = s.v := rfl
@[simp] theorem State.clearLatch_pc : (s.clearLatch).pc = s.pc := rfl
@[simp] theorem State.clearLatch_i : (s.clearLatch).i = s.i := rfl
@[simp] theorem State.clearLatch_sp : (s.clearLatch).sp = s.sp := rfl
@[simp] theorem State.clearLatch_stack : (s.clearLatch).stack = s.stack := rfl
@[simp] theorem State.clearLatch_dt : (s.clearLatch).dt = s.dt := rfl
@[simp] theorem State.clearLatch_st : (s.clearLatch).st = s.st := rfl
@[simp] theorem State.clearLatch_mem : (s.clearLatch).mem = s.mem := rfl
@[simp] theorem State.clearLatch_keys : (s.clearLatch).keys = s.keys := rfl
@[simp] theorem State.clearLatch_fb : (s.clearLatch).fb = s.fb := rfl
@[simp] theorem State.clearLatch_fault : (s.clearLatch).fault = .none := rfl
@[simp] theorem State.clearLatch_faultPc : (s.clearLatch).faultPc = 0 := rfl
@[simp] theorem State.clearLatch_faultWord : (s.clearLatch).faultWord = 0 := rfl
@[simp] theorem State.clearLatch_draws : (s.clearLatch).draws = s.draws := rfl

@[simp] theorem State.advancePc_v : (s.advancePc).v = s.v := rfl
@[simp] theorem State.advancePc_pc : (s.advancePc).pc = s.pc + 2 := rfl
@[simp] theorem State.advancePc_i : (s.advancePc).i = s.i := rfl
@[simp] theorem State.advancePc_sp : (s.advancePc).sp = s.sp := rfl
@[simp] theorem State.advancePc_stack : (s.advancePc).stack = s.stack := rfl
@[simp] theorem State.advancePc_dt : (s.advancePc).dt = s.dt := rfl
@[simp] theorem State.advancePc_st : (s.advancePc).st = s.st := rfl
@[simp] theorem State.advancePc_mem : (s.advancePc).mem = s.mem := rfl
@[simp] theorem State.advancePc_keys : (s.advancePc).keys = s.keys := rfl
@[simp] theorem State.advancePc_fb : (s.advancePc).fb = s.fb := rfl
@[simp] theorem State.advancePc_fault : (s.advancePc).fault = s.fault := rfl
@[simp] theorem State.advancePc_faultPc : (s.advancePc).faultPc = s.faultPc := rfl
@[simp] theorem State.advancePc_faultWord : (s.advancePc).faultWord = s.faultWord := rfl
@[simp] theorem State.advancePc_draws : (s.advancePc).draws = s.draws := rfl

@[simp] theorem State.tick_v : (s.tick).v = s.v := rfl
@[simp] theorem State.tick_pc : (s.tick).pc = s.pc := rfl
@[simp] theorem State.tick_i : (s.tick).i = s.i := rfl
@[simp] theorem State.tick_sp : (s.tick).sp = s.sp := rfl
@[simp] theorem State.tick_stack : (s.tick).stack = s.stack := rfl
@[simp] theorem State.tick_dt : (s.tick).dt = countDown s.dt := rfl
@[simp] theorem State.tick_st : (s.tick).st = countDown s.st := rfl
@[simp] theorem State.tick_mem : (s.tick).mem = s.mem := rfl
@[simp] theorem State.tick_keys : (s.tick).keys = s.keys := rfl
@[simp] theorem State.tick_fb : (s.tick).fb = s.fb := rfl
@[simp] theorem State.tick_fault : (s.tick).fault = s.fault := rfl
@[simp] theorem State.tick_faultPc : (s.tick).faultPc = s.faultPc := rfl
@[simp] theorem State.tick_faultWord : (s.tick).faultWord = s.faultWord := rfl
@[simp] theorem State.tick_draws : (s.tick).draws = s.draws := rfl

@[simp] theorem State.writeKey_v (k : Key) (h : Bool) : (s.writeKey k h).v = s.v := rfl
@[simp] theorem State.writeKey_pc (k : Key) (h : Bool) : (s.writeKey k h).pc = s.pc := rfl
@[simp] theorem State.writeKey_i (k : Key) (h : Bool) : (s.writeKey k h).i = s.i := rfl
@[simp] theorem State.writeKey_sp (k : Key) (h : Bool) : (s.writeKey k h).sp = s.sp := rfl
@[simp] theorem State.writeKey_stack (k : Key) (h : Bool) : (s.writeKey k h).stack = s.stack := rfl
@[simp] theorem State.writeKey_dt (k : Key) (h : Bool) : (s.writeKey k h).dt = s.dt := rfl
@[simp] theorem State.writeKey_st (k : Key) (h : Bool) : (s.writeKey k h).st = s.st := rfl
@[simp] theorem State.writeKey_mem (k : Key) (h : Bool) : (s.writeKey k h).mem = s.mem := rfl
@[simp] theorem State.writeKey_keys (k : Key) (h : Bool) : (s.writeKey k h).keys = s.keys.set k.val h k.isLt := rfl
@[simp] theorem State.writeKey_fb (k : Key) (h : Bool) : (s.writeKey k h).fb = s.fb := rfl
@[simp] theorem State.writeKey_fault (k : Key) (h : Bool) : (s.writeKey k h).fault = s.fault := rfl
@[simp] theorem State.writeKey_faultPc (k : Key) (h : Bool) : (s.writeKey k h).faultPc = s.faultPc := rfl
@[simp] theorem State.writeKey_faultWord (k : Key) (h : Bool) : (s.writeKey k h).faultWord = s.faultWord := rfl
@[simp] theorem State.writeKey_draws (k : Key) (h : Bool) : (s.writeKey k h).draws = s.draws := rfl

end Sys2Proof.Machine
end

