-- ==== Sys2Proof/Laws/Ops.lean ====
section
/-! SUPPORT. What each shared operation can do, said once. -/

namespace Sys2Proof.Machine

variable (s : State)

/-! ## Registers -/

/-- A register reads as written, and every other one as before. -/
theorem State.reg_setReg (r q : Reg) (b : Byte) : (s.setReg r b).reg q = if q = r then b else s.reg q := by
  simp only [State.reg, State.setReg, Vector.getElem_set, Fin.ext_iff]
  by_cases h : r.val = q.val
  · rw [if_pos h, if_pos h.symm]
  · rw [if_neg h, if_neg (Ne.symm h)]

@[simp] theorem State.reg_setReg_self (r : Reg) (b : Byte) : (s.setReg r b).reg r = b := by simp [State.reg_setReg]

theorem State.reg_setReg_ne {r q : Reg} (b : Byte) (h : q ≠ r) : (s.setReg r b).reg q = s.reg q := by
  simp [State.reg_setReg, h]

/-- Registers after a result and its flag: VF is the flag, whichever register took the result (R172). -/
theorem State.reg_setRegThenFlag (x q : Reg) (b f : Byte) :
    (s.setRegThenFlag x b f).reg q = if q = 15 then f else if q = x then b else s.reg q := by
  simp [State.setRegThenFlag, State.reg_setReg, flagReg]

/-- The register file is all that a result and its flag change. -/
theorem State.setRegThenFlag_eq (x : Reg) (b f : Byte) :
    s.setRegThenFlag x b f = { s with v := (s.setRegThenFlag x b f).v } := rfl

theorem State.reg_eq_of_v {s t : State} (h : t.v = s.v) (r : Reg) : t.reg r = s.reg r := by
  simp [State.reg, h]

/-! ## Memory -/

/-- A byte reads as written, at every name of its address, and every other one as before (20_memory.md R73). -/
theorem State.memRead_memWrite (a c : Nat) (b : Byte) :
    (s.memWrite a b).memRead c = if c % 4096 = a % 4096 then b else s.memRead c := by
  simp [State.memRead, State.memWrite, Memory.read_write, Config.memSize]

theorem State.memRead_eq_of_mem {s t : State} (h : t.mem = s.mem) (a : Nat) : t.memRead a = s.memRead a := by
  simp [State.memRead, h]

theorem State.memRead_mod (a : Nat) : s.memRead (a % 4096) = s.memRead a := by
  simp [State.memRead, Config.memSize]

/-- A store keeps the canonical form of memory. -/
theorem State.wf_memWrite {s : State} (a : Nat) (b : Byte) (h : Memory.wf s.mem = true) :
    Memory.wf (s.memWrite a b).mem = true :=
  Memory.wf_write b (Nat.mod_lt _ (by decide)) h

/-! ## The return stack -/

/-- A push with room: the entry at SP is written and SP goes up by one. -/
theorem State.push_eq_some (w : Word) (h : s.sp.toNat < 16) :
    s.push w = some { s with stack := s.stack.set s.sp.toNat w h, sp := s.sp + 1 } := by
  simp [State.push, h]

/-- A push without room answers nothing. -/
theorem State.push_eq_none (w : Word) (h : ¬ s.sp.toNat < 16) : s.push w = none := by simp [State.push, h]

/-- Whatever a push answers, it is the one push there is. -/
theorem State.push_some_iff {w : Word} {t : State} :
    s.push w = some t ↔
      ∃ h : s.sp.toNat < 16, t = { s with stack := s.stack.set s.sp.toNat w h, sp := s.sp + 1 } := by
  by_cases h : s.sp.toNat < 16 <;> simp [State.push, h, eq_comm]

theorem State.pred_sp_toNat {s : State} (h : s.sp ≠ 0) : (s.sp - 1).toNat = s.sp.toNat - 1 := by
  have : s.sp.toNat ≠ 0 := fun e => h (BitVec.eq_of_toNat_eq (by simpa using e))
  have := s.sp.isLt
  rw [BitVec.toNat_sub]
  change (2 ^ 8 - 1 + s.sp.toNat) % 2 ^ 8 = _
  omega

/-- A pop with an entry in use: the top entry, and SP one lower. -/
theorem State.pop_eq_some (h0 : s.sp ≠ 0) (h : s.sp.toNat ≤ 16) :
    s.pop = some (s.stackAt (Fin.ofNat 16 (s.sp.toNat - 1)), { s with sp := s.sp - 1 }) := by
  have h1 := State.pred_sp_toNat h0
  have h2 : s.sp.toNat ≠ 0 := fun e => h0 (BitVec.eq_of_toNat_eq (by simpa using e))
  have h3 : (s.sp - 1).toNat < 16 := by omega
  have h4 : (s.sp.toNat - 1) % 16 = s.sp.toNat - 1 := Nat.mod_eq_of_lt (by omega)
  simp only [State.pop, State.stackAt, Fin.ofNat_eq_cast, Fin.val_natCast, h4, h1]
  rw [dif_pos (by omega)]

/-- A pop with SP above 16 answers nothing. -/
theorem State.pop_eq_none (h0 : s.sp ≠ 0) (h : ¬ s.sp.toNat ≤ 16) : s.pop = none := by
  rw [State.pop, dif_neg]
  rw [State.pred_sp_toNat h0]
  omega

/-- Whatever a pop answers: SP was 1 to 16, the word is the top entry, and only SP changes. -/
theorem State.pop_some_iff {w : Word} {t : State} :
    s.pop = some (w, t) ↔
      ∃ h : (s.sp - 1).toNat < 16, w = s.stack[(s.sp - 1).toNat] ∧ t = { s with sp := s.sp - 1 } := by
  simp [State.pop, eq_comm]

/-! ## Keys -/

/-- No key is found exactly when none is held. -/
theorem State.lowestKey_eq_none : s.lowestKey = none ↔ ∀ k, s.key k = false := by
  simp [State.lowestKey, List.find?_eq_none]

/-- The key found is held, and no lower one is (44_keyboard_timers.md R245). -/
theorem State.lowestKey_eq_some {k : Key} :
    s.lowestKey = some k ↔ s.key k = true ∧ ∀ j, j < k → s.key j = false := by
  rw [State.lowestKey, List.find?_eq_some_iff_getElem]
  constructor
  · rintro ⟨hk, i, hi, rfl, hlt⟩
    refine ⟨hk, fun j hj => ?_⟩
    have hij : j.val < i := by simpa [Fin.lt_def] using hj
    simpa using hlt j.val hij
  · rintro ⟨hk, hlt⟩
    exact ⟨hk, k.val, by simp, by simp, fun j hj => by simpa using hlt ⟨j, by omega⟩ (by simpa [Fin.lt_def] using hj)⟩

/-- The host's key write (60_exceptions.md R324). -/
theorem State.key_writeKey (k j : Key) (h : Bool) : (s.writeKey k h).key j = if j = k then h else s.key j := by
  simp only [State.key, State.writeKey, Vector.getElem_set, Fin.ext_iff]
  by_cases e : k.val = j.val
  · rw [if_pos e, if_pos e.symm]
  · rw [if_neg e, if_neg (Ne.symm e)]

/-! ## Framebuffer -/

/-- A cell reads as written, and every other one as before. -/
theorem Frame.get_put (f : Frame) (px qx : Col) (py qy : Row) (b : Bool) :
    (f.put px py b).get qx qy = if qx = px ∧ qy = py then b else f.get qx qy := by
  unfold Frame.get Frame.put
  simp only [Vector.getElem_set, Fin.ext_iff]
  by_cases hy : py.val = qy.val
  · by_cases hx : px.val = qx.val
    · simp [hx, hy]
    · have hx' : ¬ qx.val = px.val := Ne.symm hx
      simp [hx, hx', hy]
  · have hy' : ¬ qy.val = py.val := Ne.symm hy
    simp [hy, hy']

@[simp] theorem Frame.get_blank (px : Col) (py : Row) : Frame.get Frame.blank px py = false := by
  simp [Frame.get, Frame.blank]

/-- Two frames with the same cells are one frame. -/
theorem Frame.ext_get {f g : Frame} (h : ∀ px py, f.get px py = g.get px py) : f = g := by
  apply Vector.ext
  intro y hy
  apply Vector.ext
  intro x hx
  exact h ⟨x, hx⟩ ⟨y, hy⟩

/-! ## Skips, timers and the end of a cycle -/

/-- A skip changes the PC alone, by 2, when its condition holds. -/
theorem State.skipIf_eq (c : Bool) : s.skipIf c = { s with pc := if c then s.pc + 2 else s.pc } := by
  cases c <;> rfl

/-- Counting down is subtraction floored at zero (70_reset_and_hazards.md R352). -/
theorem countDown_toNat (b : Byte) : (countDown b).toNat = b.toNat - 1 := by
  unfold countDown
  by_cases h : b = 0
  · simp [h]
  · have : b.toNat ≠ 0 := fun e => h (BitVec.eq_of_toNat_eq (by simpa using e))
    have := b.isLt
    rw [if_neg h, BitVec.toNat_sub]
    change (2 ^ 8 - 1 + b.toNat) % 2 ^ 8 = _
    omega

/-- A cycle ends with the tick, unless a fault is latched. -/
theorem State.finishCycle_eq :
    s.finishCycle = if s.fault = .none then { s with dt := countDown s.dt, st := countDown s.st } else s := rfl

/-- Fault entry on the state after the fetch gives the state before the fetch with the latch written
(60_exceptions.md R303). -/
theorem State.raise_advancePc (c : FaultCode) (w : Word) :
    s.advancePc.raise c w = { s with fault := c, faultPc := s.pc, faultWord := w } := by
  simp [State.raise, State.advancePc, State.setPc]

/-! ## Block store and block load -/

/-- A block store changes memory alone. -/
theorem State.storeFirst_eq (k : Nat) : s.storeFirst k = { s with mem := (s.storeFirst k).mem } := by
  induction k with
  | zero => rfl
  | succ k ih =>
    rw [State.storeFirst, ih]
    rfl

@[simp] theorem State.storeFirst_i (k : Nat) : (s.storeFirst k).i = s.i := by rw [State.storeFirst_eq]

@[simp] theorem State.storeFirst_reg (k : Nat) (r : Reg) : (s.storeFirst k).reg r = s.reg r := by
  rw [State.storeFirst_eq]
  rfl

/-- Every byte after a block store of `k` registers, at most 16: register j at I + j, and what was there before
elsewhere (42_memory_index.md R204). -/
theorem State.memRead_storeFirst (k : Nat) (hk : k ≤ 16) (a : Nat) :
    (∀ j : Reg, j.val < k → a % 4096 = (s.i.toNat + j.val) % 4096 → (s.storeFirst k).memRead a = s.reg j) ∧
    ((∀ j : Reg, j.val < k → a % 4096 ≠ (s.i.toNat + j.val) % 4096) → (s.storeFirst k).memRead a = s.memRead a) := by
  induction k with
  | zero => exact ⟨fun j h => absurd h (by omega), fun _ => rfl⟩
  | succ k ih =>
    obtain ⟨ih1, ih2⟩ := ih (by omega)
    have hfin : (Fin.ofNat 16 k : Reg).val = k := by simp; omega
    simp only [State.storeFirst, State.memRead_memWrite, State.indexPlus]
    constructor
    · intro j hj ha
      by_cases hjk : j.val = k
      · have : j = Fin.ofNat 16 k := Fin.ext (by omega)
        rw [if_pos (by rw [ha, hjk]), this]
      · have hne : ¬ a % 4096 = (s.i.toNat + k) % 4096 := by
          have := j.isLt
          omega
        rw [if_neg hne]
        exact ih1 j (by omega) ha
    · intro h
      have hne := h (Fin.ofNat 16 k) (by omega)
      rw [hfin] at hne
      rw [if_neg hne]
      exact ih2 fun j hj => h j (by omega)

theorem State.wf_storeFirst {s : State} (k : Nat) (h : Memory.wf s.mem = true) : Memory.wf (s.storeFirst k).mem = true := by
  induction k with
  | zero => exact h
  | succ k ih => exact State.wf_memWrite _ _ ih

/-- A block load changes the register file alone. -/
theorem State.loadFirst_eq (k : Nat) : s.loadFirst k = { s with v := (s.loadFirst k).v } := by
  induction k with
  | zero => rfl
  | succ k ih =>
    rw [State.loadFirst, ih]
    rfl

/-- Every register after a block load of `k` registers, at most 16 (42_memory_index.md R205). -/
theorem State.reg_loadFirst (k : Nat) (hk : k ≤ 16) (r : Reg) :
    (s.loadFirst k).reg r = if r.val < k then s.memRead (s.i.toNat + r.val) else s.reg r := by
  induction k with
  | zero => simp [State.loadFirst]
  | succ k ih =>
    have hfin : (Fin.ofNat 16 k : Reg).val = k := by simp; omega
    rw [State.loadFirst, State.reg_setReg, ih (by omega)]
    by_cases hr : r.val = k
    · rw [if_pos (Fin.ext (by omega)), if_pos (by omega), State.indexPlus, hr]
    · rw [if_neg (fun e => hr (by rw [e, hfin]))]
      by_cases h : r.val < k
      · rw [if_pos h, if_pos (by omega)]
      · rw [if_neg h, if_neg (by omega)]

/-! ## Loading an image -/

/-- An image that fits loads (70_reset_and_hazards.md R341). -/
theorem State.load_eq_ok {bytes : List Byte} (h : bytes.length ≤ 3584) :
    State.load bytes = .ok (State.reset.storeBytes Config.programOrigin bytes) :=
  if_neg (Nat.not_lt.2 h)

/-- A longer image does not load (R341). -/
theorem State.load_eq_error {bytes : List Byte} (h : 3584 < bytes.length) : State.load bytes = .error .imageTooLarge :=
  if_pos h

/-- Whatever a load answers: the image fitted, and the machine is reset memory with the image stored. -/
theorem State.load_ok_iff {bytes : List Byte} {m : State} :
    State.load bytes = .ok m ↔ bytes.length ≤ 3584 ∧ m = State.reset.storeBytes Config.programOrigin bytes := by
  by_cases h : bytes.length ≤ 3584
  · simp [State.load_eq_ok h, h, eq_comm]
  · simp [State.load_eq_error (Nat.not_le.1 h), h]

/-- Storing bytes changes memory alone. -/
theorem State.storeBytes_eq (a : Nat) (bs : List Byte) : s.storeBytes a bs = { s with mem := (s.storeBytes a bs).mem } := by
  induction bs generalizing s a with
  | nil => rfl
  | cons b bs ih =>
    rw [State.storeBytes, ih]
    rfl

theorem State.wf_storeBytes {s : State} (a : Nat) (bs : List Byte) (h : Memory.wf s.mem = true) :
    Memory.wf (s.storeBytes a bs).mem = true := by
  induction bs generalizing s a with
  | nil => exact h
  | cons b bs ih => exact ih (a + 1) (State.wf_memWrite a b h)

/-- Every byte after storing bytes that stay below the top of memory (70_reset_and_hazards.md R340). -/
theorem State.memRead_storeBytes (a : Nat) (bs : List Byte) (h : a + bs.length ≤ 4096) (c : Nat) (hc : c < 4096) :
    (s.storeBytes a bs).memRead c = if a ≤ c ∧ c < a + bs.length then bs.getD (c - a) 0 else s.memRead c := by
  induction bs generalizing s a with
  | nil =>
    simp only [List.length_nil] at *
    rw [if_neg (by omega), State.storeBytes]
  | cons b bs ih =>
    simp only [List.length_cons] at h
    rw [State.storeBytes, ih _ (a + 1) (by omega), State.memRead_memWrite]
    simp only [List.length_cons]
    by_cases h1 : c = a
    · subst h1
      rw [if_neg (by omega), if_pos rfl, if_pos (by omega)]
      simp
    · have hne : ¬ c % 4096 = a % 4096 := by
        rw [Nat.mod_eq_of_lt hc, Nat.mod_eq_of_lt (by omega)]
        exact h1
      rw [if_neg hne]
      by_cases h2 : a + 1 ≤ c ∧ c < a + 1 + bs.length
      · rw [if_pos h2, if_pos (by omega)]
        have : c - a = (c - (a + 1)) + 1 := by omega
        rw [this, List.getD_cons_succ]
      · rw [if_neg h2, if_neg (by omega)]

end Sys2Proof.Machine
end

