-- ==== Sys2Proof/Laws/Display.lean ====
section
/-! SUPPORT. What drawing does to each pixel and to the collision, in closed form (45_display.md R271, R272). -/

namespace Sys2Proof.Machine

@[simp] theorem colPlus_val (b : Byte) (c : Nat) : (colPlus b c).val = (b.toNat + c) % 64 := by
  simp [colPlus]

@[simp] theorem rowPlus_val (b : Byte) (r : Nat) : (rowPlus b r).val = (b.toNat + r) % 32 := by
  simp [rowPlus]

/-- Places fewer than 64 apart in a sprite are different columns (R272). -/
theorem colPlus_inj {b : Byte} {c c' : Nat} (hc : c < 64) (hc' : c' < 64) (h : colPlus b c = colPlus b c') : c = c' := by
  have := congrArg Fin.val h
  simp only [colPlus_val] at this
  omega

/-- Places fewer than 32 apart in a sprite are different rows (R272). -/
theorem rowPlus_inj {b : Byte} {r r' : Nat} (hr : r < 32) (hr' : r' < 32) (h : rowPlus b r = rowPlus b r') : r = r' := by
  have := congrArg Fin.val h
  simp only [rowPlus_val] at this
  omega

variable (d : Drawing) (vx vy b : Byte)

theorem Drawing.get_drawBit (px qx : Col) (py qy : Row) (bit : Bool) :
    (d.drawBit px py bit).frame.get qx qy =
      if bit = true ∧ qx = px ∧ qy = py then !d.frame.get qx qy else d.frame.get qx qy := by
  cases bit
  · simp [Drawing.drawBit]
  · simp only [Drawing.drawBit, if_true, Frame.get_put, true_and]
    by_cases h : qx = px ∧ qy = py
    · rw [if_pos h, if_pos h, h.1, h.2]
    · rw [if_neg h, if_neg h]

theorem Drawing.collision_drawBit (px : Col) (py : Row) (bit : Bool) :
    (d.drawBit px py bit).collision = (d.collision || (bit && d.frame.get px py)) := by
  cases bit <;> simp [Drawing.drawBit]

/-- A row of sprite bits toggles the pixels under its 1 bits and no others. -/
theorem Drawing.get_drawRow (py qy : Row) (qx : Col) (k : Nat) (hk : k ≤ 8) :
    ((∃ c, c < k ∧ spriteBit b c = true ∧ qx = colPlus vx c ∧ qy = py) →
      (d.drawRow vx b py k).frame.get qx qy = !d.frame.get qx qy) ∧
    ((¬ ∃ c, c < k ∧ spriteBit b c = true ∧ qx = colPlus vx c ∧ qy = py) →
      (d.drawRow vx b py k).frame.get qx qy = d.frame.get qx qy) := by
  induction k with
  | zero => exact ⟨fun ⟨c, h, _⟩ => absurd h (by omega), fun _ => rfl⟩
  | succ k ih =>
    obtain ⟨ih1, ih2⟩ := ih (by omega)
    rw [Drawing.drawRow, Drawing.get_drawBit]
    by_cases hlast : spriteBit b k = true ∧ qx = colPlus vx k ∧ qy = py
    · have hno : ¬ ∃ c, c < k ∧ spriteBit b c = true ∧ qx = colPlus vx c ∧ qy = py := by
        rintro ⟨c, hc, -, hx, -⟩
        have := colPlus_inj (b := vx) (by omega) (by omega) (hx.symm.trans hlast.2.1)
        omega
      rw [if_pos hlast, ih2 hno]
      exact ⟨fun _ => rfl, fun h => absurd ⟨k, by omega, hlast⟩ h⟩
    · rw [if_neg hlast]
      refine ⟨?_, fun h => ih2 fun ⟨c, hc, hr⟩ => h ⟨c, by omega, hr⟩⟩
      rintro ⟨c, hc, hr⟩
      by_cases hck : c = k
      · exact absurd (hck ▸ hr) hlast
      · exact ih1 ⟨c, by omega, hr⟩

/-- A row of sprite bits collides if one of its 1 bits is over an on pixel. -/
theorem Drawing.collision_drawRow (py : Row) (k : Nat) (hk : k ≤ 8) :
    (d.drawRow vx b py k).collision = true ↔
      d.collision = true ∨ ∃ c, c < k ∧ spriteBit b c = true ∧ d.frame.get (colPlus vx c) py = true := by
  induction k with
  | zero => simp [Drawing.drawRow]
  | succ k ih =>
    have hsame : (d.drawRow vx b py k).frame.get (colPlus vx k) py = d.frame.get (colPlus vx k) py := by
      refine (d.get_drawRow vx b py py (colPlus vx k) k (by omega)).2 ?_
      rintro ⟨c, hc, -, hx, -⟩
      have := colPlus_inj (b := vx) (by omega) (by omega) hx
      omega
    rw [Drawing.drawRow, Drawing.collision_drawBit, hsame, Bool.or_eq_true, ih (by omega), Bool.and_eq_true, or_assoc]
    refine or_congr_right ⟨?_, ?_⟩
    · rintro (⟨c, hc, hr⟩ | hr)
      · exact ⟨c, by omega, hr⟩
      · exact ⟨k, by omega, hr⟩
    · rintro ⟨c, hc, hr⟩
      by_cases hck : c = k
      · exact Or.inr (hck ▸ hr)
      · exact Or.inl ⟨c, by omega, hr⟩

variable (s : State)

/-- `SpriteCovers` in the rasteriser's own terms. -/
theorem State.spriteCovers_iff (k : Nat) (px : Col) (py : Row) :
    s.SpriteCovers vx vy k px py ↔
      ∃ r c, r < k ∧ c < 8 ∧ spriteBit (s.memRead (s.indexPlus r)) c = true ∧ px = colPlus vx c ∧ py = rowPlus vy r := by
  simp only [State.SpriteCovers, spriteBit, State.indexPlus, Fin.ext_iff, colPlus_val, rowPlus_val, Nat.mod_add_mod]

/-- A sprite toggles the pixels its 1 bits cover and no others (45_display.md R270). -/
theorem State.get_drawRows (k : Nat) (hk : k ≤ 32) (px : Col) (py : Row) :
    (s.SpriteCovers vx vy k px py → (s.drawRows vx vy k).frame.get px py = !s.pixel px py) ∧
    (¬ s.SpriteCovers vx vy k px py → (s.drawRows vx vy k).frame.get px py = s.pixel px py) := by
  simp only [State.spriteCovers_iff]
  induction k with
  | zero => exact ⟨fun ⟨r, c, h, _⟩ => absurd h (by omega), fun _ => rfl⟩
  | succ k ih =>
    obtain ⟨ih1, ih2⟩ := ih (by omega)
    have hrow := (s.drawRows vx vy k).get_drawRow vx (s.memRead (s.indexPlus k)) (rowPlus vy k) py px 8 le_rfl
    rw [State.drawRows]
    by_cases hlast : ∃ c, c < 8 ∧ spriteBit (s.memRead (s.indexPlus k)) c = true ∧ px = colPlus vx c ∧ py = rowPlus vy k
    · have hno : ¬ ∃ r c, r < k ∧ c < 8 ∧ spriteBit (s.memRead (s.indexPlus r)) c = true ∧ px = colPlus vx c ∧
          py = rowPlus vy r := by
        rintro ⟨r, c, hr, -, -, -, hy⟩
        obtain ⟨-, -, -, -, hy'⟩ := hlast
        have := rowPlus_inj (b := vy) (by omega) (by omega) (hy.symm.trans hy')
        omega
      rw [hrow.1 hlast, ih2 hno]
      obtain ⟨c, hc, hr⟩ := hlast
      exact ⟨fun _ => rfl, fun h => absurd ⟨k, c, by omega, hc, hr⟩ h⟩
    · rw [hrow.2 hlast]
      refine ⟨?_, fun h => ih2 fun ⟨r, c, hr, h'⟩ => h ⟨r, c, by omega, h'⟩⟩
      rintro ⟨r, c, hr, h'⟩
      by_cases hrk : r = k
      · exact absurd ⟨c, hrk ▸ h'⟩ hlast
      · exact ih1 ⟨r, c, by omega, h'⟩

/-- A sprite collides if one of its 1 bits covers a pixel that was on before the draw (R271). -/
theorem State.collision_drawRows (k : Nat) (hk : k ≤ 32) :
    (s.drawRows vx vy k).collision = true ↔ ∃ px py, s.SpriteCovers vx vy k px py ∧ s.pixel px py = true := by
  simp only [State.spriteCovers_iff]
  induction k with
  | zero => simp [State.drawRows]
  | succ k ih =>
    have hsame : ∀ c, (s.drawRows vx vy k).frame.get (colPlus vx c) (rowPlus vy k) =
        s.pixel (colPlus vx c) (rowPlus vy k) := by
      intro c
      refine (s.get_drawRows vx vy k (by omega) _ _).2 ?_
      rw [State.spriteCovers_iff]
      rintro ⟨r, c', hr, -, -, -, hy⟩
      have := rowPlus_inj (b := vy) (by omega) (by omega) hy
      omega
    rw [State.drawRows, Drawing.collision_drawRow _ _ _ _ _ le_rfl, ih (by omega)]
    simp only [hsame]
    constructor
    · rintro (⟨px, py, ⟨r, c, hr, h⟩, hp⟩ | ⟨c, hc, hb, hp⟩)
      · exact ⟨px, py, ⟨r, c, by omega, h⟩, hp⟩
      · exact ⟨_, _, ⟨k, c, by omega, hc, hb, rfl, rfl⟩, hp⟩
    · rintro ⟨px, py, ⟨r, c, hr, hc, hb, hx, hy⟩, hp⟩
      by_cases hrk : r = k
      · subst hrk
        exact Or.inr ⟨c, hc, hb, hx ▸ hy ▸ hp⟩
      · exact Or.inl ⟨px, py, ⟨r, c, by omega, hc, hb, hx, hy⟩, hp⟩

end Sys2Proof.Machine
end

