-- ==== Sys2Proof/Laws/Step.lean ====
section
/-! SUPPORT. What a step can do, said once: every claim about a cycle starts from `step_next_iff`. -/

namespace Sys2Proof.Machine

/-- With a fault latched a step changes nothing (60_exceptions.md R304). -/
theorem step_of_faulted {s : State} (h : s.fault ≠ .none) : step s = .next s := by simp [step, h]

/-- A step that answers a next state either stood still at a latched fault, or ran the decoded instruction on the state
after the fetch and ended the cycle. -/
theorem step_next_iff {s t : State} :
    step s = .next t ↔
      (s.fault ≠ .none ∧ t = s) ∨
      (s.fault = .none ∧ ∃ u, exec (decodeWord s.fetchWord) s.advancePc = .next u ∧ t = u.finishCycle) := by
  unfold step
  by_cases h : s.fault = .none
  · simp only [h, if_true]
    cases exec (decodeWord s.fetchWord) s.advancePc <;> simp [eq_comm]
  · simp [h, eq_comm]

/-- A step from a state with no fault whose instruction answers. -/
theorem step_of_exec {s u : State} (h : s.fault = .none) (hu : exec (decodeWord s.fetchWord) s.advancePc = .next u) :
    step s = .next u.finishCycle :=
  step_next_iff.2 (Or.inr ⟨h, u, hu, rfl⟩)

/-- The end of a cycle changes the timers alone. -/
theorem State.finishCycle_keeps (s : State) :
    s.finishCycle = { s with dt := s.finishCycle.dt, st := s.finishCycle.st } := by
  rw [State.finishCycle_eq]
  split <;> rfl

@[simp] theorem State.finishCycle_fault (s : State) : s.finishCycle.fault = s.fault := by
  rw [State.finishCycle_keeps]

/-- The word fetched depends on memory and PC alone. -/
theorem State.fetchWord_eq {s t : State} (hm : t.mem = s.mem) (hp : t.pc = s.pc) : t.fetchWord = s.fetchWord := by
  simp [State.fetchWord, State.memRead, hm, hp]

end Sys2Proof.Machine
end

