-- ==== Sys2Proof/Laws/Exec.lean ====
section
/-! SUPPORT. What an instruction can do, said once: the shape of every next state. -/

namespace Sys2Proof.Machine

/-- What CALL answers: the push and the jump with room, STACK_OVERFLOW with SP = 16, and no next state otherwise. -/
theorem execCall_next_iff {nnn : Addr} {s t : State} :
    execCall nnn s = .next t ↔
      (s.sp = 16 ∧ t = s.raise .stackOverflow (encode (.call nnn))) ∨
      (∃ h : s.sp.toNat < 16, t =
        { s with stack := s.stack.set s.sp.toNat s.pc h, sp := s.sp + 1, pc := zextAddr nnn }) := by
  unfold execCall
  by_cases h16 : s.sp = 16
  · rw [if_pos h16]
    have hn : ¬ s.sp.toNat < 16 := by simp [h16]
    exact ⟨fun h => .inl ⟨h16, (Host.Outcome.next.inj h).symm⟩,
      fun h => h.elim (fun h => by rw [h.2]) fun ⟨hlt, _⟩ => absurd hlt hn⟩
  · rw [if_neg h16]
    by_cases hlt : s.sp.toNat < 16
    · rw [State.push_eq_some s _ hlt]
      exact ⟨fun h => .inr ⟨hlt, (Host.Outcome.next.inj h).symm⟩,
        fun h => h.elim (fun h => absurd h.1 h16) fun ⟨_, h⟩ => by rw [h]; rfl⟩
    · rw [State.push_eq_none s _ hlt]
      exact ⟨(fun h => nomatch h), fun h => h.elim (fun h => absurd h.1 h16) fun ⟨h, _⟩ => absurd h hlt⟩

/-- What RET answers: the pop with SP 1 to 16, STACK_UNDERFLOW with SP = 0, and no next state otherwise. -/
theorem execRet_next_iff {ign : Byte} {s t : State} :
    execRet ign s = .next t ↔
      (s.sp = 0 ∧ t = s.raise .stackUnderflow (encode (.ret ign))) ∨
      (s.sp ≠ 0 ∧ s.sp.toNat ≤ 16 ∧ t =
        { s with sp := s.sp - 1, pc := s.stackAt (Fin.ofNat 16 (s.sp.toNat - 1)) }) := by
  unfold execRet
  by_cases h0 : s.sp = 0
  · rw [if_pos h0]
    exact ⟨fun h => .inl ⟨h0, (Host.Outcome.next.inj h).symm⟩,
      fun h => h.elim (fun h => by rw [h.2]) fun h => absurd h0 h.1⟩
  · rw [if_neg h0]
    by_cases hle : s.sp.toNat ≤ 16
    · rw [State.pop_eq_some s h0 hle]
      exact ⟨fun h => .inr ⟨h0, hle, (Host.Outcome.next.inj h).symm⟩,
        fun h => h.elim (fun h => absurd h.1 h0) fun h => by rw [h.2.2]; rfl⟩
    · rw [State.pop_eq_none s h0 hle]
      exact ⟨(fun h => nomatch h), fun h => h.elim (fun h => absurd h.1 h0) fun h => absurd h.2.1 hle⟩

/-- The next state of an instruction is the state after the fetch with one of these changes: registers (and the count of
draws), PC, I, a timer, memory kept in its canonical form, the frame and registers, PC and the stack, or a fault taken
by a CALL with a full stack or a RET with an empty one. -/
theorem exec_next_cases {i : Instr} {s t : State} (h : exec i s = .next t) :
    t = { s with v := t.v, draws := t.draws } ∨ t = { s with pc := t.pc } ∨ t = { s with i := t.i } ∨
    t = { s with dt := t.dt, st := t.st } ∨
    (t = { s with mem := t.mem } ∧ (Memory.wf s.mem = true → Memory.wf t.mem = true)) ∨
    t = { s with v := t.v, fb := t.fb } ∨
    (t = { s with pc := t.pc, sp := t.sp, stack := t.stack } ∧ t.sp.toNat ≤ 16) ∨
    (s.sp = 16 ∧ t = s.raise .stackOverflow (encode i) ∧ ∃ nnn, i = .call nnn) ∨
    (s.sp = 0 ∧ t = s.raise .stackUnderflow (encode i) ∧ ∃ ign, i = .ret ign) := by
  cases i with
  | call nnn =>
    rcases execCall_next_iff.1 h with ⟨h16, rfl⟩ | ⟨hlt, rfl⟩
    · exact .inr (.inr (.inr (.inr (.inr (.inr (.inr (.inl ⟨h16, rfl, nnn, rfl⟩)))))))
    · refine .inr (.inr (.inr (.inr (.inr (.inr (.inl ⟨rfl, ?_⟩))))))
      change (s.sp.toNat + 1) % 2 ^ 8 ≤ 16
      omega
  | ret ign =>
    rcases execRet_next_iff.1 h with ⟨h0, rfl⟩ | ⟨h0, hle, rfl⟩
    · exact .inr (.inr (.inr (.inr (.inr (.inr (.inr (.inr ⟨h0, rfl, ign, rfl⟩)))))))
    · refine .inr (.inr (.inr (.inr (.inr (.inr (.inl ⟨rfl, ?_⟩))))))
      change (s.sp - 1).toNat ≤ 16
      rw [State.pred_sp_toNat h0]
      omega
  | ldB x =>
    obtain rfl := Host.Outcome.next.inj h
    exact .inr (.inr (.inr (.inr (.inl ⟨rfl, fun hw =>
      State.wf_memWrite _ _ (State.wf_memWrite _ _ (State.wf_memWrite _ _ hw))⟩))))
  | storeRegs x =>
    obtain rfl := Host.Outcome.next.inj h
    exact .inr (.inr (.inr (.inr (.inl ⟨State.storeFirst_eq s _, State.wf_storeFirst _⟩))))
  | loadRegs x =>
    obtain rfl := Host.Outcome.next.inj h
    exact .inl (by rw [State.loadFirst_eq s])
  | ldVxK x =>
    simp only [exec, execLdVxK] at h
    cases hk : s.lowestKey <;> rw [hk] at h <;> obtain rfl := Host.Outcome.next.inj h
    · exact .inr (.inl rfl)
    · exact .inl rfl
  | seImm x kk | sneImm x kk | seReg x y ign | sneReg x y ign | skp x ign | sknp x ign =>
    obtain rfl := Host.Outcome.next.inj h
    exact .inr (.inl (by rw [State.skipIf_eq]))
  | jp nnn | jpV0 nnn =>
    obtain rfl := Host.Outcome.next.inj h
    exact .inr (.inl rfl)
  | ldI nnn | addI x | ldF x =>
    obtain rfl := Host.Outcome.next.inj h
    exact .inr (.inr (.inl rfl))
  | ldDtVx x | ldStVx x =>
    obtain rfl := Host.Outcome.next.inj h
    exact .inr (.inr (.inr (.inl rfl)))
  | cls ign | drw x y n =>
    obtain rfl := Host.Outcome.next.inj h
    exact .inr (.inr (.inr (.inr (.inr (.inl rfl)))))
  | ldImm x kk | addImm x kk | ldReg x y | orReg x y | andReg x y | xorReg x y | addReg x y | subReg x y | shr x ign
  | subnReg x y | shl x ign | rnd x kk | ldVxDt x | nop w =>
    obtain rfl := Host.Outcome.next.inj h
    exact .inl rfl

end Sys2Proof.Machine
end

