-- ==== Sys2Proof/Laws/Frame.lean ====
section
/-! SUPPORT. How frames and selections are shown. -/

namespace Sys2Proof.Machine

/-- A frame holds if each field of the state that is not of a listed part is the same. -/
theorem unchangedBut_of_fields {L : List Part} {s t : State}
    (regs : .regs ∈ L ∨ t.v = s.v) (pc : .pc ∈ L ∨ t.pc = s.pc) (index : .index ∈ L ∨ t.i = s.i)
    (stack : .stack ∈ L ∨ (t.sp = s.sp ∧ t.stack = s.stack)) (delayTimer : .delayTimer ∈ L ∨ t.dt = s.dt)
    (soundTimer : .soundTimer ∈ L ∨ t.st = s.st) (memory : .memory ∈ L ∨ t.mem = s.mem)
    (keys : .keys ∈ L ∨ t.keys = s.keys) (display : .display ∈ L ∨ t.fb = s.fb)
    (latch : .latch ∈ L ∨ (t.fault = s.fault ∧ t.faultPc = s.faultPc ∧ t.faultWord = s.faultWord))
    (draws : .draws ∈ L ∨ t.draws = s.draws) : UnchangedBut L s t := by
  intro p hp
  cases p <;> simp_all [Part.same, State.reg, State.memRead, State.key, State.pixel, State.stackAt]

/-- A row under mask 0xF000 selects what its family decodes to. -/
theorem selects_of_family {v : Word} {g : Word → Instr} (f : Nibble) (hf : fieldFamily v = f)
    (hd : ∀ {w}, fieldFamily w = f → decodeWord w = g w) : Selects 0xF000 v g :=
  fun _ h => hd ((family_of_match_F000 h).trans hf)

/-- A row under mask 0xF00F selects what its family and low nibble decode to. -/
theorem selects_of_nibble {v : Word} {g : Word → Instr} (f n : Nibble) (hf : fieldFamily v = f) (hn : fieldN v = n)
    (hd : ∀ {w}, fieldFamily w = f → fieldN w = n → decodeWord w = g w) : Selects 0xF00F v g :=
  fun _ h => hd ((fields_of_match_F00F h).1.trans hf) ((fields_of_match_F00F h).2.trans hn)

/-- A row under mask 0xF0FF selects what its family and low byte decode to. -/
theorem selects_of_byte {v : Word} {g : Word → Instr} (f : Nibble) (k : Byte) (hf : fieldFamily v = f)
    (hk : fieldKK v = k) (hd : ∀ {w}, fieldFamily w = f → fieldKK w = k → decodeWord w = g w) : Selects 0xF0FF v g :=
  fun _ h => hd ((fields_of_match_F0FF h).1.trans hf) ((fields_of_match_F0FF h).2.trans hk)

end Sys2Proof.Machine
end

