-- ==== Sys2Proof/Laws/PerInstr.lean ====
section
/-! SUPPORT. Laws of every instruction as syntax, one lemma per constructor. -/

namespace Sys2Proof.Laws.EncodesRow

/-- The encoded word matches the instruction's row of the opcode map (30_encoding.md R116). -/
def Statement (i : Instr) : Prop := encode i &&& i.rowMask = i.rowMatch

/-! The forms under the three masks. -/

theorem formXK_F000 (f : Nibble) (x : Reg) (kk : Byte) : formXK f x kk &&& 0xF000 = f ++ 0x000#12 := by
  rw [show (0xF000 : Word) = BitVec.allOnes 4 ++ 0#4 ++ 0#8 from rfl, formXK, BitVec.and_append, BitVec.and_append,
    BitVec.and_allOnes, BitVec.and_zero, BitVec.and_zero, BitVec.append_assoc]
  rfl

theorem formXK_F0FF (f : Nibble) (x : Reg) (kk : Byte) : formXK f x kk &&& 0xF0FF = f ++ 0#4 ++ kk := by
  rw [show (0xF0FF : Word) = BitVec.allOnes 4 ++ 0#4 ++ BitVec.allOnes 8 from rfl, formXK, BitVec.and_append,
    BitVec.and_append, BitVec.and_allOnes, BitVec.and_zero, BitVec.and_allOnes]

theorem formXNN_F000 (f : Nibble) (x : Reg) (m l : Nibble) : formXNN f x m l &&& 0xF000 = f ++ 0#4 ++ 0#4 ++ 0#4 := by
  rw [show (0xF000 : Word) = BitVec.allOnes 4 ++ 0#4 ++ 0#4 ++ 0#4 from rfl, formXNN, BitVec.and_append,
    BitVec.and_append, BitVec.and_append, BitVec.and_allOnes, BitVec.and_zero, BitVec.and_zero, BitVec.and_zero]

theorem formXNN_F00F (f : Nibble) (x : Reg) (m l : Nibble) : formXNN f x m l &&& 0xF00F = f ++ 0#4 ++ 0#4 ++ l := by
  rw [show (0xF00F : Word) = BitVec.allOnes 4 ++ 0#4 ++ 0#4 ++ BitVec.allOnes 4 from rfl, formXNN, BitVec.and_append,
    BitVec.and_append, BitVec.and_append, BitVec.and_allOnes, BitVec.and_zero, BitVec.and_zero, BitVec.and_allOnes]

theorem formA_F000 (f : Nibble) (nnn : Addr) : formA f nnn &&& 0xF000 = f ++ 0#12 := by
  rw [show (0xF000 : Word) = BitVec.allOnes 4 ++ 0#12 from rfl, formA, BitVec.and_append, BitVec.and_allOnes,
    BitVec.and_zero]

theorem formZ_F00F (o : Byte) (l : Nibble) : formZ o l &&& 0xF00F = 0x0#4 ++ 0#8 ++ l := by
  rw [show (0xF00F : Word) = BitVec.allOnes 4 ++ 0#8 ++ BitVec.allOnes 4 from rfl, formZ, BitVec.and_append,
    BitVec.and_append, BitVec.and_allOnes, BitVec.and_zero, BitVec.and_allOnes]

/-! The lemma of each constructor. -/

theorem cls (ign : Byte) : Statement (.cls ign) := (formZ_F00F ign _).trans rfl

theorem ret (ign : Byte) : Statement (.ret ign) := (formZ_F00F ign _).trans rfl

theorem jp (nnn : Addr) : Statement (.jp nnn) := (formA_F000 _ nnn).trans rfl

theorem call (nnn : Addr) : Statement (.call nnn) := (formA_F000 _ nnn).trans rfl

theorem seImm (x : Reg) (kk : Byte) : Statement (.seImm x kk) := (formXK_F000 _ x kk).trans rfl

theorem sneImm (x : Reg) (kk : Byte) : Statement (.sneImm x kk) := (formXK_F000 _ x kk).trans rfl

theorem seReg (x y : Reg) (ign : Nibble) : Statement (.seReg x y ign) := (formXNN_F000 _ x _ ign).trans rfl

theorem ldImm (x : Reg) (kk : Byte) : Statement (.ldImm x kk) := (formXK_F000 _ x kk).trans rfl

theorem addImm (x : Reg) (kk : Byte) : Statement (.addImm x kk) := (formXK_F000 _ x kk).trans rfl

theorem ldReg (x y : Reg) : Statement (.ldReg x y) := (formXNN_F00F _ x (BitVec.ofFin y) _).trans rfl

theorem orReg (x y : Reg) : Statement (.orReg x y) := (formXNN_F00F _ x (BitVec.ofFin y) _).trans rfl

theorem andReg (x y : Reg) : Statement (.andReg x y) := (formXNN_F00F _ x (BitVec.ofFin y) _).trans rfl

theorem xorReg (x y : Reg) : Statement (.xorReg x y) := (formXNN_F00F _ x (BitVec.ofFin y) _).trans rfl

theorem addReg (x y : Reg) : Statement (.addReg x y) := (formXNN_F00F _ x (BitVec.ofFin y) _).trans rfl

theorem subReg (x y : Reg) : Statement (.subReg x y) := (formXNN_F00F _ x (BitVec.ofFin y) _).trans rfl

theorem shr (x : Reg) (ign : Nibble) : Statement (.shr x ign) := (formXNN_F00F _ x ign _).trans rfl

theorem subnReg (x y : Reg) : Statement (.subnReg x y) := (formXNN_F00F _ x (BitVec.ofFin y) _).trans rfl

theorem shl (x : Reg) (ign : Nibble) : Statement (.shl x ign) := (formXNN_F00F _ x ign _).trans rfl

theorem sneReg (x y : Reg) (ign : Nibble) : Statement (.sneReg x y ign) := (formXNN_F000 _ x _ ign).trans rfl

theorem ldI (nnn : Addr) : Statement (.ldI nnn) := (formA_F000 _ nnn).trans rfl

theorem jpV0 (nnn : Addr) : Statement (.jpV0 nnn) := (formA_F000 _ nnn).trans rfl

theorem rnd (x : Reg) (kk : Byte) : Statement (.rnd x kk) := (formXK_F000 _ x kk).trans rfl

theorem drw (x y : Reg) (n : Nibble) : Statement (.drw x y n) := (formXNN_F000 _ x _ n).trans rfl

theorem skp (x : Reg) (ign : Nibble) : Statement (.skp x ign) := (formXNN_F00F _ x ign _).trans rfl

theorem sknp (x : Reg) (ign : Nibble) : Statement (.sknp x ign) := (formXNN_F00F _ x ign _).trans rfl

theorem ldVxDt (x : Reg) : Statement (.ldVxDt x) := (formXK_F0FF _ x _).trans rfl

theorem ldVxK (x : Reg) : Statement (.ldVxK x) := (formXK_F0FF _ x _).trans rfl

theorem ldDtVx (x : Reg) : Statement (.ldDtVx x) := (formXK_F0FF _ x _).trans rfl

theorem ldStVx (x : Reg) : Statement (.ldStVx x) := (formXK_F0FF _ x _).trans rfl

theorem addI (x : Reg) : Statement (.addI x) := (formXK_F0FF _ x _).trans rfl

theorem ldF (x : Reg) : Statement (.ldF x) := (formXK_F0FF _ x _).trans rfl

theorem ldB (x : Reg) : Statement (.ldB x) := (formXK_F0FF _ x _).trans rfl

theorem storeRegs (x : Reg) : Statement (.storeRegs x) := (formXK_F0FF _ x _).trans rfl

theorem loadRegs (x : Reg) : Statement (.loadRegs x) := (formXK_F0FF _ x _).trans rfl

theorem nop (w : Word) : Statement (.nop w) := BitVec.and_zero

end Sys2Proof.Laws.EncodesRow
end

