-- ==== Sys2Proof/Tests/Slice0.lean ====
section
/-! SUPPORT. Small tests, each of one step or one word. Every expected value is read from spec/: most are rows of
95_test_vectors.md (T-DEC, T-NOP, T-FETCH, T-CF, T-ADD, T-SUB, T-SHIFT, T-REG, T-MEM, T-RND, T-KEY, T-TICK, T-DRW,
T-LOAD). A `witness_<Name>` shows a state and operands that meet the hypotheses of the statement of that name. -/

namespace Sys2Proof.Tests

open Sys2Proof Sys2Proof.Machine

/-! ## Helpers -/

/-- A next state with a property. -/
def nextIs (o : Result) (p : State → Bool) : Bool :=
  match o with
  | .next t => p t
  | _ => false

/-- A stop with this fault. -/
def faultIs (o : Result) (r : Fault) : Bool :=
  match o with
  | .fault q => q == r
  | _ => false

/-- Base state B with PC = `a` and the word there, as the one-word vectors of 95_test_vectors.md start. -/
def wordAt (a : Word) (w : Nat) : State := { State.reset with pc := a }.withFetchWord 16 w

/-- The word at 0x200. -/
def word (w : Nat) : State := wordAt 0x200 w

/-- Registers written one after the other. -/
def withRegs (s : State) (l : List (Reg × Byte)) : State := l.foldl (fun t p => t.setReg p.1 p.2) s

/-- Memory bytes written one after the other. -/
def withMem (s : State) (l : List (Nat × Byte)) : State := l.foldl (fun t p => t.memWrite p.1 p.2) s

/-- Keys held. -/
def withKeys (s : State) (l : List Key) : State := l.foldl (fun t k => t.writeKey k true) s

/-- Pixels turned on. -/
def withPixels (s : State) (l : List (Col × Row)) : State :=
  l.foldl (fun t p => t.setFrame (Frame.put t.fb p.1 p.2 true)) s

/-- SP and entry 0 of the stack. -/
def withStack (s : State) (sp : Byte) (w : Word) : State := { s with sp := sp, stack := s.stack.set 0 w }

/-- The cells of a frame, row by row. -/
def cells (f : Frame) : List (List Bool) := f.toList.map fun row => row.toList

/-- Exactly the listed pixels are on. -/
def onlyOn (s : State) (l : List (Col × Row)) : Bool := cells s.fb == cells (withPixels State.reset l).fb

/-- The two states agree in every field. -/
def sameAs (s t : State) : Bool :=
  t.v.toList == s.v.toList && t.pc == s.pc && t.i == s.i && t.sp == s.sp && t.stack.toList == s.stack.toList &&
  t.dt == s.dt && t.st == s.st && t.mem == s.mem && t.keys.toList == s.keys.toList && cells t.fb == cells s.fb &&
  t.fault == s.fault && t.faultPc == s.faultPc && t.faultWord == s.faultWord && t.draws == s.draws

/-! ## Well-formed instructions -/

/-- A NOP that holds a word of another instruction is ill-formed, one for each table (30_encoding.md R107 to R110) and
one for a direct family. -/
theorem test_wellFormed_refuses :
    (Instr.nop 0x00E0).wellFormed = false ∧ (Instr.nop 0x0FFE).wellFormed = false ∧
    (Instr.nop 0x1234).wellFormed = false ∧ (Instr.nop 0x8126).wellFormed = false ∧
    (Instr.nop 0xE0A1).wellFormed = false ∧ (Instr.nop 0xF065).wellFormed = false := by decide

theorem test_wellFormed_accepts :
    (Instr.nop 0x0123).wellFormed = true ∧ (Instr.nop 0x800F).wellFormed = true ∧ (Instr.nop 0xE09F).wellFormed = true ∧
    (Instr.nop 0xF066).wellFormed = true ∧ (Instr.drw 15 15 0xF).wellFormed = true := by decide

/-! ## Decoding (T-DEC, and the patterns of 30_encoding.md R116 with fields written in) -/

theorem test_decode_family0 :
    decodeWord 0x00E0 = .cls 0x0E ∧ decodeWord 0x0000 = .cls 0x00 ∧ decodeWord 0x0120 = .cls 0x12 ∧
    decodeWord 0x00EE = .ret 0x0E ∧ decodeWord 0x0FFE = .ret 0xFF ∧ decodeWord 0x0123 = .nop 0x0123 ∧
    decodeWord 0x00E1 = .nop 0x00E1 := by decide

theorem test_decode_control :
    decodeWord 0x1234 = .jp 0x234 ∧ decodeWord 0x2300 = .call 0x300 ∧ decodeWord 0x3142 = .seImm 1 0x42 ∧
    decodeWord 0x4142 = .sneImm 1 0x42 ∧ decodeWord 0x5121 = .seReg 1 2 0x1 ∧ decodeWord 0x912F = .sneReg 1 2 0xF ∧
    decodeWord 0xBFFF = .jpV0 0xFFF := by decide

theorem test_decode_alu :
    decodeWord 0x6005 = .ldImm 0 0x05 ∧ decodeWord 0x7F01 = .addImm 15 0x01 ∧ decodeWord 0x8120 = .ldReg 1 2 ∧
    decodeWord 0x8121 = .orReg 1 2 ∧ decodeWord 0x8122 = .andReg 1 2 ∧ decodeWord 0x8123 = .xorReg 1 2 ∧
    decodeWord 0x8124 = .addReg 1 2 ∧ decodeWord 0x8125 = .subReg 1 2 ∧ decodeWord 0x8126 = .shr 1 0x2 ∧
    decodeWord 0x8127 = .subnReg 1 2 ∧ decodeWord 0x812E = .shl 1 0x2 ∧ decodeWord 0x8008 = .nop 0x8008 ∧
    decodeWord 0x800F = .nop 0x800F := by decide

theorem test_decode_index_random_display :
    decodeWord 0xA250 = .ldI 0x250 ∧ decodeWord 0xC30F = .rnd 3 0x0F ∧ decodeWord 0xD015 = .drw 0 1 0x5 ∧
    decodeWord 0xD000 = .drw 0 0 0x0 := by decide

theorem test_decode_keys :
    decodeWord 0xE09E = .skp 0 0x9 ∧ decodeWord 0xE10E = .skp 1 0x0 ∧ decodeWord 0xE0A1 = .sknp 0 0xA ∧
    decodeWord 0xE1F1 = .sknp 1 0xF ∧ decodeWord 0xE09F = .nop 0xE09F := by decide

theorem test_decode_familyF :
    decodeWord 0xF307 = .ldVxDt 3 ∧ decodeWord 0xF20A = .ldVxK 2 ∧ decodeWord 0xF015 = .ldDtVx 0 ∧
    decodeWord 0xF018 = .ldStVx 0 ∧ decodeWord 0xF21E = .addI 2 ∧ decodeWord 0xFA29 = .ldF 10 ∧
    decodeWord 0xF333 = .ldB 3 ∧ decodeWord 0xFF55 = .storeRegs 15 ∧ decodeWord 0xF465 = .loadRegs 4 ∧
    decodeWord 0xF000 = .nop 0xF000 ∧ decodeWord 0xF0FF = .nop 0xF0FF ∧ decodeWord 0xF066 = .nop 0xF066 ∧
    decodeWord 0xFFFF = .nop 0xFFFF := by decide

/-- R100: exactly two bytes, high byte first, and the rest is handed back; one byte is no instruction. -/
theorem test_decode_bytes :
    decode [0xA2, 0x50, 0xD0] = .ok (.ldI 0x250, [0xD0]) ∧ decode [0xA2] = .error .truncated ∧
    decode [] = .error .truncated := by decide

/-- 0xA250 and 0xD005 of the source's scenario, as 90_conflicts.md C2 and C3 read them. -/
theorem test_encode :
    encode (.ldI 0x250) = 0xA250 ∧ encode (.drw 0 0 0x5) = 0xD005 ∧ encode (.cls 0x0E) = 0x00E0 ∧
    encode (.ret 0x0E) = 0x00EE ∧ encode (.skp 1 0x9) = 0xE19E ∧ encode (.sknp 1 0xA) = 0xE1A1 ∧
    encode (.loadRegs 4) = 0xF465 ∧ encode (.shl 15 0x0) = 0x8F0E := by decide

/-! ## Fetch and tick (T-FETCH, T-NOP, T-TICK) -/

theorem test_fetch_at_top :
    nextIs (step (wordAt 0xFFF 0x6007)) (fun t => t.reg 0 == 0x07 && t.pc == 0x1001) = true ∧
    (wordAt 0xFFF 0x6007).memRead 0x000 = 0x07 := by decide

theorem test_fetch_beyond_memory :
    nextIs (step { word 0x6005 with pc := 0x1200 }) (fun t => t.reg 0 == 0x05 && t.pc == 0x1202) = true := by decide

theorem test_fetch_at_odd_pc :
    nextIs (step (wordAt 0x201 0x630A)) (fun t => t.reg 3 == 0x0A && t.pc == 0x203) = true := by decide

theorem test_nop_only_advances :
    nextIs (step { word 0x8008 with dt := 2 }) (sameAs { word 0x8008 with dt := 1, pc := 0x202 }) = true ∧
    nextIs (step { word 0xFFFF with dt := 2 }) (sameAs { word 0xFFFF with dt := 1, pc := 0x202 }) = true := by decide

theorem test_tick_floors :
    nextIs (step { word 0xF000 with dt := 1, st := 2 }) (fun t => t.dt == 0 && t.st == 1) = true ∧
    nextIs (step { word 0xF000 with dt := 0, st := 0 }) (fun t => t.dt == 0 && t.st == 0) = true ∧
    nextIs (step { word 0xF000 with dt := 0xFF, st := 1 }) (fun t => t.dt == 0xFE && t.st == 0) = true := by decide

/-! ## Control flow (T-CF) -/

theorem test_cls :
    nextIs (step (withPixels (word 0x00E0) [(3, 3), (63, 31)])) (fun t => onlyOn t [] && t.pc == 0x202) = true := by decide

theorem test_ret :
    nextIs (step (withStack (wordAt 0x30A 0x00EE) 1 0x206))
      (fun t => t.sp == 0 && t.pc == 0x206 && t.stackAt 0 == 0x206) = true := by decide

theorem test_ret_underflow :
    nextIs (step { word 0x00EE with dt := 5 }) (sameAs
      { word 0x00EE with dt := 5, fault := .stackUnderflow, faultPc := 0x200, faultWord := 0x00EE }) = true := by
  decide

theorem test_jp : nextIs (step (word 0x1FFF)) (fun t => t.pc == 0xFFF) = true := by decide

theorem test_call :
    nextIs (step { word 0x2300 with sp := 15, dt := 5 })
      (fun t => t.stackAt 15 == 0x202 && t.sp == 16 && t.pc == 0x300 && t.dt == 4) = true := by decide

theorem test_call_overflow :
    nextIs (step { word 0x2300 with sp := 16, dt := 5, st := 7 }) (sameAs
      { word 0x2300 with sp := 16, dt := 5, st := 7, fault := .stackOverflow, faultPc := 0x200, faultWord := 0x2300 })
      = true := by decide

theorem test_faulted_machine_stays :
    nextIs (step { word 0x6005 with fault := .stackOverflow, faultPc := 0x200, faultWord := 0x2300, dt := 5 }) (sameAs
      { word 0x6005 with fault := .stackOverflow, faultPc := 0x200, faultWord := 0x2300, dt := 5 }) = true ∧
    { State.reset with fault := .stackOverflow, faultPc := 0x200, faultWord := 0x2300 }.cycleResult =
      .fault 1 0x200 0x2300 := by decide

theorem test_seImm :
    nextIs (step (withRegs (word 0x3142) [(1, 0x42)])) (fun t => t.pc == 0x204) = true ∧
    nextIs (step (withRegs (word 0x3142) [(1, 0x43)])) (fun t => t.pc == 0x202) = true := by decide

theorem test_skip_wraps : nextIs (step (wordAt 0xFFFC 0x3000)) (fun t => t.pc == 0x0000) = true := by decide

theorem test_sneImm :
    nextIs (step (withRegs (word 0x4142) [(1, 0x42)])) (fun t => t.pc == 0x202) = true ∧
    nextIs (step (withRegs (word 0x4142) [(1, 0x43)])) (fun t => t.pc == 0x204) = true := by decide

theorem test_seReg :
    nextIs (step (withRegs (word 0x5121) [(1, 7), (2, 7)])) (fun t => t.pc == 0x204) = true ∧
    nextIs (step (withRegs (word 0x5120) [(1, 7), (2, 8)])) (fun t => t.pc == 0x202) = true := by decide

theorem test_sneReg :
    nextIs (step (withRegs (word 0x9120) [(1, 7), (2, 7)])) (fun t => t.pc == 0x202) = true ∧
    nextIs (step (withRegs (word 0x912F) [(1, 7), (2, 8)])) (fun t => t.pc == 0x204) = true := by decide

theorem test_jpV0 : nextIs (step (withRegs (word 0xBFFF) [(0, 0xFF)])) (fun t => t.pc == 0x10FE) = true := by decide

/-! ## Registers (T-REG, T-ADD, T-SUB, T-SHIFT) -/

theorem test_ldImm :
    nextIs (step (word 0x6005)) (fun t => t.reg 0 == 0x05 && t.pc == 0x202) = true ∧
    nextIs (step (word 0x6FAA)) (fun t => t.reg 15 == 0xAA) = true := by decide

theorem test_addImm :
    nextIs (step (withRegs (word 0x70FF) [(0, 0x01), (15, 0x55)])) (fun t => t.reg 0 == 0x00 && t.reg 15 == 0x55) = true ∧
    nextIs (step (withRegs (word 0x7F01) [(15, 0xFF)])) (fun t => t.reg 15 == 0x00) = true := by decide

theorem test_ldReg : nextIs (step (withRegs (word 0x8010) [(1, 0x99)])) (fun t => t.reg 0 == 0x99) = true := by decide

theorem test_orReg :
    nextIs (step (withRegs (word 0x8011) [(0, 0xF0), (1, 0x0F), (15, 0x77)]))
      (fun t => t.reg 0 == 0xFF && t.reg 15 == 0x77) = true := by decide

theorem test_andReg :
    nextIs (step (withRegs (word 0x8012) [(0, 0xF0), (1, 0x3C), (15, 0x77)]))
      (fun t => t.reg 0 == 0x30 && t.reg 15 == 0x77) = true := by decide

theorem test_xorReg :
    nextIs (step (withRegs (word 0x8013) [(0, 0xFF), (1, 0x0F), (15, 0x77)]))
      (fun t => t.reg 0 == 0xF0 && t.reg 15 == 0x77) = true := by decide

theorem test_addReg :
    nextIs (step (withRegs (word 0x8014) [(0, 0xFF), (1, 0x01)])) (fun t => t.reg 0 == 0x00 && t.reg 15 == 1) = true ∧
    nextIs (step (withRegs (word 0x8014) [(0, 0xFE), (1, 0x01)])) (fun t => t.reg 0 == 0xFF && t.reg 15 == 0) = true := by
  decide

theorem test_addReg_flag_register :
    nextIs (step (withRegs (word 0x8F14) [(15, 0xFF), (1, 0x01)])) (fun t => t.reg 15 == 1) = true ∧
    nextIs (step (withRegs (word 0x81F4) [(15, 0x10), (1, 0x05)])) (fun t => t.reg 1 == 0x15 && t.reg 15 == 0) = true := by
  decide

theorem test_subReg :
    nextIs (step (withRegs (word 0x8015) [(0, 0x03), (1, 0x05)])) (fun t => t.reg 0 == 0xFE && t.reg 15 == 0) = true ∧
    nextIs (step (withRegs (word 0x8015) [(0, 0x05), (1, 0x05)])) (fun t => t.reg 0 == 0x00 && t.reg 15 == 1) = true := by
  decide

theorem test_subReg_flag_register :
    nextIs (step (withRegs (word 0x8F15) [(15, 0x03), (1, 0x05)])) (fun t => t.reg 15 == 0) = true := by decide

theorem test_subnReg :
    nextIs (step (withRegs (word 0x8017) [(0, 0x03), (1, 0x05)])) (fun t => t.reg 0 == 0x02 && t.reg 15 == 1) = true ∧
    nextIs (step (withRegs (word 0x8017) [(0, 0xFF), (1, 0x00)])) (fun t => t.reg 0 == 0x01 && t.reg 15 == 0) = true := by
  decide

theorem test_shr :
    nextIs (step (withRegs (word 0x8126) [(1, 0x04), (2, 0xFF)])) (fun t => t.reg 1 == 0x02 && t.reg 15 == 0) = true ∧
    nextIs (step (withRegs (word 0x8006) [(0, 0xFF)])) (fun t => t.reg 0 == 0x7F && t.reg 15 == 1) = true := by decide

theorem test_shr_flag_register :
    nextIs (step (withRegs (word 0x8F06) [(15, 0x05)])) (fun t => t.reg 15 == 1) = true := by decide

theorem test_shl :
    nextIs (step (withRegs (word 0x800E) [(0, 0x81)])) (fun t => t.reg 0 == 0x02 && t.reg 15 == 1) = true ∧
    nextIs (step (withRegs (word 0x800E) [(0, 0x7F)])) (fun t => t.reg 0 == 0xFE && t.reg 15 == 0) = true := by decide

theorem test_shl_flag_register :
    nextIs (step (withRegs (word 0x8F0E) [(15, 0x80)])) (fun t => t.reg 15 == 1) = true := by decide

/-! ## Memory and the index register (T-MEM) -/

theorem test_ldI : nextIs (step (word 0xA123)) (fun t => t.i == 0x123) = true := by decide

theorem test_addI :
    nextIs (step (withRegs { word 0xF01E with i := 0x0FFF } [(0, 1)])) (fun t => t.i == 0x1000) = true ∧
    nextIs (step (withRegs { word 0xF01E with i := 0xFFFF } [(0, 1), (15, 0x33)]))
      (fun t => t.i == 0x0000 && t.reg 15 == 0x33) = true := by decide

theorem test_ldF :
    nextIs (step (withRegs (word 0xF029) [(0, 0x0F)])) (fun t => t.i == 0x09B) = true ∧
    nextIs (step (withRegs (word 0xF029) [(0, 0xFF)])) (fun t => t.i == 0x54B) = true := by decide

theorem test_ldB :
    nextIs (step (withRegs { word 0xF033 with i := 0x300 } [(0, 245)]))
      (fun t => t.memRead 0x300 == 2 && t.memRead 0x301 == 4 && t.memRead 0x302 == 5 && t.i == 0x300) = true := by decide

theorem test_ldB_wraps :
    nextIs (step (withRegs { word 0xF033 with i := 0xFFF } [(0, 123)]))
      (fun t => t.memRead 0xFFF == 1 && t.memRead 0x000 == 2 && t.memRead 0x001 == 3) = true := by decide

theorem test_storeRegs_wraps :
    nextIs (step (withRegs { wordAt 0x300 0xF355 with i := 0xFFE } [(0, 1), (1, 2), (2, 3), (3, 4)]))
      (fun t => t.memRead 0xFFE == 1 && t.memRead 0xFFF == 2 && t.memRead 0x000 == 3 && t.memRead 0x001 == 4 &&
        t.i == 0xFFE && t.pc == 0x302) = true := by decide

theorem test_storeRegs_one :
    nextIs (step (withRegs { word 0xF055 with i := 0x300 } [(0, 0xAB), (1, 0xCD)]))
      (fun t => t.memRead 0x300 == 0xAB && t.memRead 0x301 == 0) = true := by decide

theorem test_loadRegs :
    nextIs (step { word 0xF465 with i := 0x050 })
      (fun t => t.reg 0 == 0xF0 && t.reg 1 == 0x90 && t.reg 3 == 0x90 && t.reg 4 == 0xF0 && t.reg 5 == 0 && t.i == 0x050)
      = true := by decide

theorem test_loadRegs_all :
    nextIs (step (withMem { word 0xFF65 with i := 0x300 } [(0x300, 0x10), (0x30E, 0x1E), (0x30F, 0x1F)]))
      (fun t => t.reg 0 == 0x10 && t.reg 14 == 0x1E && t.reg 15 == 0x1F) = true := by decide

/-! ## Random (T-RND) -/

/-- With kk = 0x00 the result is 0, whatever the byte drawn. -/
theorem test_rnd_zero_mask (s : State) : ∃ t, exec (.rnd 15 0x00) s = .next t ∧ t.reg 15 = 0 :=
  ⟨_, rfl, (State.reg_setReg_self s 15 _).trans (by simp)⟩

/-- With kk = 0xFF the result is the byte drawn. -/
theorem test_rnd_full_mask (s : State) : ∃ t, exec (.rnd 0 0xFF) s = .next t ∧ t.reg 0 = Config.randomByte s.draws :=
  ⟨_, rfl, (State.reg_setReg_self s 0 _).trans (BitVec.allOnes_and (x := s.randomByte))⟩

theorem test_rnd_uses_the_draw : nextIs (step (word 0xC0FF)) (fun t => t.draws == 1 && t.pc == 0x202) = true := by decide

/-! ## Keyboard and timers (T-KEY) -/

theorem test_skp :
    nextIs (step (withKeys (withRegs (word 0xE19E) [(1, 0x13)]) [3])) (fun t => t.pc == 0x204) = true ∧
    nextIs (step (withRegs (word 0xE19E) [(1, 0x05)])) (fun t => t.pc == 0x202) = true := by decide

theorem test_sknp :
    nextIs (step (withKeys (withRegs (word 0xE1A1) [(1, 0x05)]) [5])) (fun t => t.pc == 0x202) = true ∧
    nextIs (step (withRegs (word 0xE1A1) [(1, 0x05)])) (fun t => t.pc == 0x204) = true := by decide

theorem test_ldVxDt :
    nextIs (step { word 0xF307 with dt := 0x10 }) (fun t => t.reg 3 == 0x10 && t.dt == 0x0F) = true ∧
    nextIs (step (word 0xF307)) (fun t => t.reg 3 == 0 && t.dt == 0) = true := by decide

theorem test_ldDtVx :
    nextIs (step (withRegs (word 0xF015) [(0, 0x01)])) (fun t => t.dt == 0) = true ∧
    nextIs (step (withRegs (word 0xF015) [(0, 0xFF)])) (fun t => t.dt == 0xFE && t.st == 0) = true := by decide

theorem test_ldStVx :
    nextIs (step (withRegs (word 0xF018) [(0, 0x3C)])) (fun t => t.readSoundTimer == 0x3B && t.dt == 0) = true := by decide

theorem test_ldVxK_waits :
    nextIs (step (withRegs { wordAt 0x206 0xF20A with dt := 3 } [(2, 0x55)]))
      (fun t => t.pc == 0x206 && t.dt == 2 && t.reg 2 == 0x55) = true := by decide

theorem test_ldVxK_lowest :
    nextIs (step (withKeys (wordAt 0x206 0xF20A) [9, 4])) (fun t => t.reg 2 == 4 && t.pc == 0x208) = true ∧
    nextIs (step (withKeys (withRegs (word 0xFF0A) [(15, 0x22)]) [15])) (fun t => t.reg 15 == 0x0F) = true := by decide

/-! ## Display (T-DRW) -/

theorem test_drw_glyph :
    nextIs (step (withRegs { word 0xD015 with i := 0x050 } [(15, 1)]))
      (fun t => t.reg 15 == 0 && t.i == 0x050 && t.pc == 0x202 &&
        onlyOn t [(0, 0), (1, 0), (2, 0), (3, 0), (0, 1), (3, 1), (0, 2), (3, 2), (0, 3), (3, 3), (0, 4), (1, 4), (2, 4),
          (3, 4)]) = true := by decide

theorem test_drw_wraps :
    nextIs (step (withRegs (withMem { word 0xD012 with i := 0xFFF } [(0xFFF, 0xC0), (0x000, 0x40)]) [(0, 0x7F), (1, 0x3F)]))
      (fun t => t.reg 15 == 0 && onlyOn t [(63, 31), (0, 31), (0, 0)]) = true := by decide

theorem test_drw_collides :
    nextIs (step (withPixels (withMem { word 0xD011 with i := 0x300 } [(0x300, 0x80)]) [(0, 0)]))
      (fun t => t.reg 15 == 1 && onlyOn t []) = true ∧
    nextIs (step (withPixels (withMem { word 0xD011 with i := 0x300 } [(0x300, 0x40)]) [(0, 0)]))
      (fun t => t.reg 15 == 0 && onlyOn t [(0, 0), (1, 0)]) = true := by decide

theorem test_drw_column_from_vf :
    nextIs (step (withRegs (withMem { word 0xDF11 with i := 0x300 } [(0x300, 0x80)]) [(15, 5), (1, 2)]))
      (fun t => t.reg 15 == 0 && onlyOn t [(5, 2)]) = true := by decide

/-! ## Load, memory and the host (T-LOAD, 10_state.md R49) -/

theorem test_load :
    (match State.load [0x60, 0x05] with
      | .ok m => sameAs (withMem State.reset [(0x200, 0x60), (0x201, 0x05)]) m
      | .error _ => false) = true ∧
    (match State.load [] with
      | .ok m => sameAs State.reset m
      | .error _ => false) = true := by decide

/-- Glyphs 0, 5 and F of 10_state.md R44, and the bytes around the font. -/
theorem test_reset_memory :
    (List.range 5).map (fun k => State.reset.memRead (0x050 + k)) = [0xF0, 0x90, 0x90, 0x90, 0xF0] ∧
    (List.range 5).map (fun k => State.reset.memRead (0x069 + k)) = [0xF0, 0x80, 0xF0, 0x10, 0xF0] ∧
    (List.range 5).map (fun k => State.reset.memRead (0x09B + k)) = [0xF0, 0x80, 0xF0, 0x80, 0x80] ∧
    State.reset.memRead 0x04F = 0 ∧ State.reset.memRead 0x0A0 = 0 ∧ State.reset.memRead 0xFFF = 0 := by decide

/-- Writing what an unlisted address reads as removes the entry. -/
theorem test_memory_canonical :
    (withMem State.reset [(0x300, 0x12), (0x050, 0x00), (0x1300, 0x00), (0x050, 0xF0)]).mem = [] ∧
    (withMem State.reset [(0x300, 0x12), (0x050, 0x00)]).mem = [(0x050, 0x00), (0x300, 0x12)] := by decide

/-- From reset with nothing placed, the first step runs the word 0x0000, CLS (70_reset_and_hazards.md R342; log 2). -/
theorem test_first_step_of_empty_image : nextIs (step State.reset) (sameAs { State.reset with pc := 0x202 }) = true := by decide

/-! ## Witnesses of the statements' hypotheses -/

theorem witness_FieldsAreTheirBits :
    3 < 4 ∧ 7 < 8 ∧ 11 < 12 ∧ (fieldFamily 0x8000).getLsbD 3 = true ∧ (fieldX 0x0800).val.testBit 3 = true ∧
    (fieldY 0x0080).val.testBit 3 = true ∧ (fieldN 0x0008).getLsbD 3 = true ∧ (fieldKK 0x0080).getLsbD 7 = true ∧
    (fieldNNN 0x0800).getLsbD 11 = true := by decide

theorem witness_DecodeOfEncodeIsTheInstruction :
    (Instr.drw 15 15 0xF).wellFormed = true ∧ (Instr.nop 0xFFFF).wellFormed = true := by decide

theorem witness_EveryWordMatchesExactlyItsRow :
    (Instr.ret 0).rowMask ≠ 0 ∧ (0x0FFE : Word) &&& (Instr.ret 0).rowMask = (Instr.ret 0).rowMatch := by decide

theorem witness_NopWordsHaveNoEffect :
    (word 0xF0FF).fault = .none ∧ decodeWord (word 0xF0FF).fetchWord = .nop (word 0xF0FF).fetchWord := by decide

theorem witness_StepRunsTheDecodedInstruction :
    (word 0x6005).fault = .none ∧
    decode [(word 0x6005).memRead (word 0x6005).pc.toNat, (word 0x6005).memRead ((word 0x6005).pc.toNat + 1)] =
      .ok (.ldImm 0 0x05, []) := by decide

/-- The three outcomes: no fault taken, a fault taken, and the stop with SP = 17. -/
theorem witness_StepRunsTheDecodedInstruction_outcomes :
    nextIs (exec (.call 0x300) { word 0x2300 with pc := 0x202 }) (fun t => t.fault == .none) = true ∧
    nextIs (exec (.call 0x300) { word 0x2300 with pc := 0x202, sp := 16 }) (fun t => t.fault == .stackOverflow) = true ∧
    faultIs (exec (.call 0x300) { word 0x2300 with pc := 0x202, sp := 17 }) .noStackEntry = true := by decide

theorem witness_FetchReadsTwoBytesHighFirst :
    State.reset.fault = .none ∧ { State.reset with fault := .stackOverflow }.fault ≠ .none := by decide

/-- A cycle without a fault for each line of the table of 10_state.md R36. -/
theorem witness_PcAfterEveryCycle :
    ([word 0x1234, word 0x2300, word 0xB300, withStack (word 0x00EE) 1 0x206, { word 0x00EE with sp := 16 },
      word 0x3000, word 0x4001, word 0x5120, withRegs (word 0x9120) [(1, 1)], withKeys (word 0xE09E) [0], word 0xE0A1,
      word 0x3001, word 0xF00A, withKeys (word 0xF00A) [15], word 0x6005].all
      fun s => s.fault == .none && nextIs (step s) fun t => t.fault == .none) = true := by decide

theorem witness_TimersTickAfterTheInstruction :
    ([word 0xF015, word 0xF018, { word 0x6005 with dt := 0xFF, st := 1 }].all
      fun s => s.fault == .none && nextIs (step s) fun t => t.fault == .none) = true := by decide

/-- One cycle whose word is of none of the rows named, and one of each that writes its part. -/
theorem witness_OnlyTheNamedInstructionsWriteEachPart :
    ([word 0x6005, withRegs { word 0xF033 with i := 0x300 } [(0, 1)], word 0x2300, word 0xA123, word 0xC0FF,
      { word 0xD015 with i := 0x50 }].all fun s => nextIs (step s) fun _ => true) = true ∧
    (0x6005 : Word) &&& 0xF0FF ≠ 0xF033 ∧ (0x6005 : Word) &&& 0xF000 ≠ 0x2000 ∧ (0x6005 : Word) &&& 0xF00F ≠ 0x000E := by
  decide

/-- A register changed by each of the three clauses: as destination, by a block load, and as the flag. -/
theorem witness_OnlyNamedRegistersChange :
    nextIs (step (word 0x6F05)) (fun t => t.reg 15 != (word 0x6F05).reg 15) = true ∧
    nextIs (step { word 0xF065 with i := 0x50 }) (fun t => t.reg 0 != (word 0xF065).reg 0) = true ∧
    nextIs (step (word 0x8015)) (fun t => t.reg 15 != (word 0x8015).reg 15) = true := by decide

/-- States that meet the invariant: after reset, with a full stack, and with a fault latched, the last reached by a step. -/
theorem witness_EveryStepKeepsTheInvariant :
    (word 0x2300).Inv ∧ { word 0x2300 with sp := 16 }.Inv ∧
    nextIs (step { word 0x2300 with sp := 16 }) (fun t => t.fault == .stackOverflow && decide t.Inv) = true ∧
    nextIs (step (word 0x00EE)) (fun t => t.fault == .stackUnderflow && decide t.Inv) = true := by decide

theorem witness_EveryCycleCompletes : (word 0xC0FF).Inv ∧ (withKeys (word 0xF00A) [0]).Inv := by decide

theorem witness_HostWritesKeepTheInvariant : State.reset.Inv ∧ ∃ m, State.load [0x12, 0x00] = .ok m :=
  ⟨by decide, _, rfl⟩

/-- Both sides of the bound of 70_reset_and_hazards.md R341. -/
theorem witness_LoadBuildsTheResetMachine :
    (List.replicate 3584 (0x12 : Byte)).length ≤ 3584 ∧ 3584 < (List.replicate 3585 (0x12 : Byte)).length :=
  ⟨Nat.le_of_eq List.length_replicate, Nat.lt_of_lt_of_eq (Nat.lt_succ_self _) List.length_replicate.symm⟩

theorem witness_FaultedMachineStaysAsItIs :
    { State.reset with fault := .stackUnderflow }.fault ≠ .none ∧ ∃ m, State.load [] = .ok m := ⟨by decide, _, rfl⟩

theorem witness_FaultingCycleChangesOnlyTheLatch :
    (word 0x0FFE).fault = .none ∧ nextIs (step (word 0x0FFE)) (fun t => t.fault != .none) = true := by decide

/-- The three cases, at the ends of SP's range. -/
theorem witness_OnlyFullCallAndEmptyReturnFault :
    ([{ word 0x2300 with sp := 16 }, { word 0x2300 with sp := 15 }, word 0x0FFE, { word 0x00EE with sp := 16 }].all
      fun s => s.fault == .none && decide (s.sp.toNat ≤ 16)) = true ∧
    (word 0x2300).fetchWord &&& 0xF000 = 0x2000 ∧ (word 0x0FFE).fetchWord &&& 0xF00F = 0x000E := by decide

theorem witness_StackPointerOutOfRangeStops :
    16 < { State.reset with sp := 17 }.sp.toNat ∧ 16 < { State.reset with sp := 255 }.sp.toNat := by decide

theorem witness_ParkedMachineOnlyCountsDown : (word 0x1200).Parked ∧ (wordAt 0xFFF 0x1FFF).Parked := by decide

theorem witness_ReturnPopsTheAddress :
    0 < { State.reset with sp := 1 }.sp.toNat ∧ { State.reset with sp := 16 }.sp.toNat ≤ 16 ∧
    (15 : Fin 16).val + 1 = { State.reset with sp := 16 }.sp.toNat ∧ State.reset.sp = 0 := by decide

theorem witness_CallPushesTheReturnAddress :
    State.reset.sp.toNat < 16 ∧ { State.reset with sp := 15 }.sp.toNat < 16 ∧ { State.reset with sp := 16 }.sp = 16 := by
  decide

/-- `Selects` of every statement about an instruction: a word of each row, with all operand and ignored bits set. -/
theorem witness_Selects :
    (([(0x0FF0, 0xF00F, 0x0000), (0x0FFE, 0xF00F, 0x000E), (0x1FFF, 0xF000, 0x1000), (0x2FFF, 0xF000, 0x2000),
      (0x3FFF, 0xF000, 0x3000), (0x4FFF, 0xF000, 0x4000), (0x5FFF, 0xF000, 0x5000), (0x6FFF, 0xF000, 0x6000),
      (0x7FFF, 0xF000, 0x7000), (0x8FF0, 0xF00F, 0x8000), (0x8FF1, 0xF00F, 0x8001), (0x8FF2, 0xF00F, 0x8002),
      (0x8FF3, 0xF00F, 0x8003), (0x8FF4, 0xF00F, 0x8004), (0x8FF5, 0xF00F, 0x8005), (0x8FF6, 0xF00F, 0x8006),
      (0x8FF7, 0xF00F, 0x8007), (0x8FFE, 0xF00F, 0x800E)] ++
     [(0x9FFF, 0xF000, 0x9000), (0xAFFF, 0xF000, 0xA000), (0xBFFF, 0xF000, 0xB000), (0xCFFF, 0xF000, 0xC000),
      (0xDFFF, 0xF000, 0xD000), (0xEFFE, 0xF00F, 0xE00E), (0xEFF1, 0xF00F, 0xE001), (0xFF07, 0xF0FF, 0xF007),
      (0xFF0A, 0xF0FF, 0xF00A), (0xFF15, 0xF0FF, 0xF015), (0xFF18, 0xF0FF, 0xF018), (0xFF1E, 0xF0FF, 0xF01E),
      (0xFF29, 0xF0FF, 0xF029), (0xFF33, 0xF0FF, 0xF033), (0xFF55, 0xF0FF, 0xF055), (0xFF65, 0xF0FF, 0xF065)] :
      List (Word × Word × Word)).all fun p => p.1 &&& p.2.1 == p.2.2) = true := by decide

/-- V[x] = 0x13 names key 3 (44_keyboard_timers.md R240). -/
theorem witness_KeySkipsTestTheLatch :
    (3 : Key).val = ((State.reset.setReg 1 0x13).reg 1).toNat % 16 ∧
    (15 : Key).val = ((State.reset.setReg 1 0xFF).reg 1).toNat % 16 := by decide

theorem witness_DelayTimerIsReadBeforeTheTick :
    (word 0xFF07).fault = .none ∧ (word 0xFF07).fetchWord &&& 0xF0FF = 0xF007 := by decide

theorem witness_TimerWritesTickInTheSameCycle :
    (word 0xF015).fault = .none ∧ (word 0xF015).fetchWord &&& 0xF0FF = 0xF015 ∧
    (word 0xF018).fault = .none ∧ (word 0xF018).fetchWord &&& 0xF0FF = 0xF018 := by decide

/-- No key held; and the highest key held alone, so that every lower one is released. -/
theorem witness_KeyWaitTakesTheLowestKey :
    (∀ k, State.reset.key k = false) ∧
    (withKeys State.reset [15]).key 15 = true ∧ ∀ j : Key, j < 15 → (withKeys State.reset [15]).key j = false := by decide

theorem witness_KeyWaitRepeatsWithoutAKey :
    (word 0xF20A).fault = .none ∧ (word 0xF20A).fetchWord &&& 0xF0FF = 0xF00A ∧ ∀ k, (word 0xF20A).key k = false := by
  decide

/-- The hypotheses x ≠ 15, r ≠ x and r ≠ 15 of AddSetsCarry, SubtractionsSetNotBorrow and ShiftsCaptureTheBitShiftedOut,
and r ≠ x of AddImmediateWrapsWithoutFlag, LogicWorksBitByBitWithoutFlag, RandomIsMaskedByTheImmediate and
KeyWaitTakesTheLowestKey. -/
theorem witness_FlagInstructions : (14 : Reg) ≠ 15 ∧ (0 : Reg) ≠ 14 ∧ (0 : Reg) ≠ 15 := by decide

/-- An address inside the stored block and one outside it, at the wrap. -/
theorem witness_BlockStoreWritesEachRegister :
    ((15 : Reg) ≤ 15 ∧ 0x00D % 4096 = ({ State.reset with i := 0xFFE }.i.toNat + (15 : Reg).val) % 4096) ∧
    ∀ j : Reg, j ≤ 15 → 0x00E % 4096 ≠ ({ State.reset with i := 0xFFE }.i.toNat + j.val) % 4096 := by decide

/-- The state after a block store, taken as the state the block load starts from. -/
theorem witness_BlockStoreThenLoadRestores :
    ∃ s t u : State, exec (.storeRegs 15) s = .next t ∧ u.i = s.i ∧ (∀ a, u.memRead a = t.memRead a) ∧ u.reg 0 ≠ s.reg 0 :=
  ⟨withRegs { State.reset with i := 0x300 } [(0, 7)], _, withRegs (withMem { State.reset with i := 0x300 } [(0x300, 7)])
    [(0, 9)], rfl, rfl, fun _ => rfl, by decide⟩

/-- A sprite with one 1 bit, at 0x300. -/
def dotState : State := withMem { State.reset with i := 0x300 } [(0x300, 0x80)]

/-- The sprite covers the pixel (0, 0), on or off, and a sprite of no rows covers none. -/
theorem witness_DrawTogglesThePixelsCovered :
    dotState.SpriteCovers (dotState.reg 0) (dotState.reg 1) 1 0 0 ∧ dotState.pixel 0 0 = false ∧
    (withPixels dotState [(0, 0)]).SpriteCovers (dotState.reg 0) (dotState.reg 1) 1 0 0 ∧
    (withPixels dotState [(0, 0)]).pixel 0 0 = true ∧
    ¬ dotState.SpriteCovers (dotState.reg 0) (dotState.reg 1) 0 0 0 :=
  ⟨⟨0, 0, by decide⟩, by decide, ⟨0, 0, by decide⟩, by decide, fun ⟨_, _, h, _⟩ => absurd h (Nat.not_lt_zero _)⟩

/-- The first draw turns the pixel (0, 0) on; the second starts from what the first left. -/
theorem witness_DrawingTwiceRestoresTheFrame :
    ∃ s t u : State, exec (.drw 0 1 1) s = .next t ∧ (∀ px py, u.pixel px py = t.pixel px py) ∧
      (∀ a, u.memRead a = s.memRead a) ∧ u.i = s.i ∧ u.reg 0 = s.reg 0 ∧ u.reg 1 = s.reg 1 ∧
      s.pixel 0 0 = false ∧ t.pixel 0 0 = true := by
  refine ⟨dotState, _, dotState.setFrame (dotState.drawRows (dotState.reg 0) (dotState.reg 1) 1).frame, rfl, fun _ _ => rfl,
    fun _ => rfl, rfl, rfl, rfl, ?_, ?_⟩
  all_goals decide

end Sys2Proof.Tests
end

section
/-! The bits of a word's fields (00_scope.md R13). Each lemma speaks of every bit number, so that it also says the field has
no bit above its width. -/

namespace Sys2Proof

theorem getLsbD_fieldFamily (w : Word) (b : Nat) :
    (fieldFamily w).getLsbD b = (decide (b < 4) && w.getLsbD (12 + b)) :=
  BitVec.getLsbD_extractLsb' 12 4 w b

theorem testBit_fieldX (w : Word) (b : Nat) :
    (fieldX w).val.testBit b = (decide (b < 4) && w.getLsbD (8 + b)) :=
  BitVec.getLsbD_extractLsb' 8 4 w b

theorem testBit_fieldY (w : Word) (b : Nat) :
    (fieldY w).val.testBit b = (decide (b < 4) && w.getLsbD (4 + b)) :=
  BitVec.getLsbD_extractLsb' 4 4 w b

theorem getLsbD_fieldN (w : Word) (b : Nat) :
    (fieldN w).getLsbD b = (decide (b < 4) && w.getLsbD b) := by
  rw [fieldN, BitVec.getLsbD_extractLsb', Nat.zero_add]

theorem getLsbD_fieldKK (w : Word) (b : Nat) :
    (fieldKK w).getLsbD b = (decide (b < 8) && w.getLsbD b) := by
  rw [fieldKK, BitVec.getLsbD_extractLsb', Nat.zero_add]

theorem getLsbD_fieldNNN (w : Word) (b : Nat) :
    (fieldNNN w).getLsbD b = (decide (b < 12) && w.getLsbD b) := by
  rw [fieldNNN, BitVec.getLsbD_extractLsb', Nat.zero_add]

/-- Settles O1: field by field, every bit below the field's width is the bit of the word at the field's offset. -/
theorem fieldsAreTheirBits : Obligations.FieldsAreTheirBits := by
  unfold Obligations.FieldsAreTheirBits
  intro w
  exact ⟨fun b hb => by simp only [getLsbD_fieldFamily, hb, decide_true, Bool.true_and],
    fun b hb => by simp only [testBit_fieldX, hb, decide_true, Bool.true_and],
    fun b hb => by simp only [testBit_fieldY, hb, decide_true, Bool.true_and],
    fun b hb => by simp only [getLsbD_fieldN, hb, decide_true, Bool.true_and],
    fun b hb => by simp only [getLsbD_fieldKK, hb, decide_true, Bool.true_and],
    fun b hb => by simp only [getLsbD_fieldNNN, hb, decide_true, Bool.true_and]⟩

end Sys2Proof
end

section
/-! The NOP space and the NOP cycle (30_encoding.md R107 to R110, R112). -/

namespace Sys2Proof

/-- A word that some table claims decodes to a constructor other than NOP. -/
theorem decodeWord_eq_nop_iff (w : Word) : decodeWord w = .nop w ↔ isNopWord w = true := by
  constructor
  · apply decodeWord_cases w (fun i => i = .nop w → isNopWord w = true)
    case nop => exact fun h _ => h
    all_goals exact fun _ => nofun
  · exact decodeWord_nop

/-- The selectors of family 8 that R114 lists as NOP are those from 8 up without the E of SHL. -/
theorem nopNibble8_iff : ∀ n : Nibble,
    ((0x8 ≤ n && n ≤ 0xD) || n = 0xF) = true ↔ 8 ≤ n.toNat ∧ n ≠ 0xE := by
  decide

/-- The NOP space family by family: each family with a table claims the selectors its table lists. -/
theorem isNopWord_iff (w : Word) : isNopWord w = true ↔
    (fieldFamily w = 0x0 ∧ fieldN w ≠ 0x0 ∧ fieldN w ≠ 0xE) ∨
    (fieldFamily w = 0x8 ∧ 8 ≤ (fieldN w).toNat ∧ fieldN w ≠ 0xE) ∨
    (fieldFamily w = 0xE ∧ fieldN w ≠ 0x1 ∧ fieldN w ≠ 0xE) ∨
    (fieldFamily w = 0xF ∧ fieldKK w ∉ ([0x07, 0x0A, 0x15, 0x18, 0x1E, 0x29, 0x33, 0x55, 0x65] : List Byte)) := by
  rw [isNopWord]
  by_cases h0 : fieldFamily w = 0x0
  · simp [h0]
  by_cases h8 : fieldFamily w = 0x8
  · simpa [h8] using nopNibble8_iff (fieldN w)
  by_cases hE : fieldFamily w = 0xE
  · simp [hE]
  by_cases hF : fieldFamily w = 0xF
  · simp [hF]
  · simp only [h0, h8, hE, hF, if_false, false_and, or_self, Bool.false_eq_true]

end Sys2Proof

namespace Sys2Proof.Machine

theorem exec_nop (w : Word) (s : State) : exec (.nop w) s = .next s := rfl

/-- A NOP cycle is the fetch and the end of the cycle, with nothing between them. -/
theorem step_of_nop {s : State} (h : s.fault = .none) (hw : decodeWord s.fetchWord = .nop s.fetchWord) :
    step s = .next s.advancePc.finishCycle :=
  step_of_exec h (hw ▸ exec_nop _ _)

/-- With no fault latched a cycle ends with the tick. -/
theorem State.finishCycle_of_no_fault {s : State} (h : s.fault = .none) :
    s.finishCycle = { s with dt := countDown s.dt, st := countDown s.st } :=
  s.finishCycle_eq.trans (if_pos h)

/-- Settles O6: the NOP space is `isNopWord`, and the NOP cycle is the fetch's PC advance and the tick. -/
theorem nopWordsHaveNoEffect : Obligations.NopWordsHaveNoEffect := by
  unfold Obligations.NopWordsHaveNoEffect
  refine ⟨fun w => (decodeWord_eq_nop_iff w).trans (isNopWord_iff w), exec_nop, fun s h hw => ?_⟩
  have hstep := step_of_nop h hw
  rw [State.finishCycle_of_no_fault (s := s.advancePc) h] at hstep
  exact ⟨_, hstep, rfl, countDown_toNat s.dt, countDown_toNat s.st, by apply unchangedBut_of_fields <;> simp⟩

end Sys2Proof.Machine
end

section
/-! Control flow (40_control_flow.md): what each instruction answers, the frames of the operations it uses, and the
statements of the family. -/

namespace Sys2Proof.Machine

/-! ## Operands and skips -/

@[simp] theorem zextAddr_toNat (nnn : Addr) : (zextAddr nnn).toNat = nnn.toNat :=
  BitVec.toNat_setWidth_of_le (by decide)

@[simp] theorem zextByte_toNat (b : Byte) : (zextByte b).toNat = b.toNat :=
  BitVec.toNat_setWidth_of_le (by decide)

/-- An address plus a byte is at most 0x10FE, so the 16-bit sum loses no carry. -/
theorem zextAddr_add_zextByte_toNat (nnn : Addr) (b : Byte) :
    (zextAddr nnn + zextByte b).toNat = nnn.toNat + b.toNat := by
  have hn := nnn.isLt
  have hb := b.isLt
  rw [BitVec.toNat_add, zextAddr_toNat, zextByte_toNat]
  exact Nat.mod_eq_of_lt (by omega)

theorem State.skipIf_pc (s : State) (c : Bool) : (s.skipIf c).pc = if c then s.pc + 2 else s.pc := by
  rw [State.skipIf_eq]

/-- A skip on equality, as the statements write it. -/
theorem State.skipIf_beq_pc (s : State) (a b : Byte) :
    (s.skipIf (a == b)).pc = if a = b then s.pc + 2 else s.pc := by
  simp only [State.skipIf_pc, beq_iff_eq]

/-- A skip on inequality, as the statements write it. -/
theorem State.skipIf_bne_pc (s : State) (a b : Byte) :
    (s.skipIf (a != b)).pc = if a = b then s.pc else s.pc + 2 := by
  simp only [State.skipIf_pc, bne_iff_ne, ne_eq, ite_not]

/-! ## Frames -/

theorem unchangedBut_setPc (s : State) (w : Word) : UnchangedBut [.pc] s (s.setPc w) := by
  apply unchangedBut_of_fields <;> simp

theorem unchangedBut_skipIf (s : State) (c : Bool) : UnchangedBut [.pc] s (s.skipIf c) := by
  rw [State.skipIf_eq]
  exact unchangedBut_setPc s _

theorem unchangedBut_setFrame (s : State) (f : Frame) : UnchangedBut [.display] s (s.setFrame f) := by
  apply unchangedBut_of_fields <;> simp

/-- Taking a fault moves the PC back and writes the latch (60_exceptions.md R303). -/
theorem unchangedBut_raise (s : State) (c : FaultCode) (w : Word) : UnchangedBut [.pc, .latch] s (s.raise c w) := by
  apply unchangedBut_of_fields <;> simp

/-- A push or a pop with its jump writes the return stack and the PC. -/
theorem unchangedBut_stack_pc (s : State) (stack : Vector Word 16) (sp : Byte) (pc : Word) :
    UnchangedBut [.pc, .stack] s { s with stack := stack, sp := sp, pc := pc } := by
  apply unchangedBut_of_fields <;> simp

/-! ## What each instruction answers -/

theorem exec_cls (ign : Byte) (s : State) : exec (.cls ign) s = .next (s.setFrame Frame.blank) := rfl

theorem exec_jp (nnn : Addr) (s : State) : exec (.jp nnn) s = .next (s.setPc (zextAddr nnn)) := rfl

theorem exec_jpV0 (nnn : Addr) (s : State) :
    exec (.jpV0 nnn) s = .next (s.setPc (zextAddr nnn + zextByte (s.reg 0))) := rfl

theorem exec_seImm (x : Reg) (kk : Byte) (s : State) : exec (.seImm x kk) s = .next (s.skipIf (s.reg x == kk)) := rfl

theorem exec_sneImm (x : Reg) (kk : Byte) (s : State) : exec (.sneImm x kk) s = .next (s.skipIf (s.reg x != kk)) := rfl

theorem exec_seReg (x y : Reg) (ign : Nibble) (s : State) :
    exec (.seReg x y ign) s = .next (s.skipIf (s.reg x == s.reg y)) := rfl

theorem exec_sneReg (x y : Reg) (ign : Nibble) (s : State) :
    exec (.sneReg x y ign) s = .next (s.skipIf (s.reg x != s.reg y)) := rfl

/-- CALL with a free entry (R133). -/
theorem exec_call_of_room {s : State} (nnn : Addr) (h : s.sp.toNat < 16) :
    exec (.call nnn) s = .next
      { s with stack := s.stack.set s.sp.toNat s.pc h, sp := s.sp + 1, pc := zextAddr nnn } :=
  execCall_next_iff.2 (.inr ⟨h, rfl⟩)

/-- CALL with a full stack (60_exceptions.md R301). -/
theorem exec_call_of_full {s : State} (nnn : Addr) (h : s.sp = 16) :
    exec (.call nnn) s = .next (s.raise .stackOverflow (encode (.call nnn))) :=
  execCall_next_iff.2 (.inl ⟨h, rfl⟩)

/-- RET with an entry in use (R131). -/
theorem exec_ret_of_entry {s : State} (ign : Byte) (h0 : s.sp ≠ 0) (h : s.sp.toNat ≤ 16) :
    exec (.ret ign) s = .next { s with sp := s.sp - 1, pc := s.stackAt (Fin.ofNat 16 (s.sp.toNat - 1)) } :=
  execRet_next_iff.2 (.inr ⟨h0, h, rfl⟩)

/-- RET with an empty stack (60_exceptions.md R302). -/
theorem exec_ret_of_empty {s : State} (ign : Byte) (h : s.sp = 0) :
    exec (.ret ign) s = .next (s.raise .stackUnderflow (encode (.ret ign))) :=
  execRet_next_iff.2 (.inl ⟨h, rfl⟩)

/-! ## The return stack (10_state.md R40) -/

theorem succ_sp_toNat {sp : Byte} (h : sp.toNat < 16) : (sp + 1).toNat = sp.toNat + 1 := by
  rw [BitVec.toNat_add]
  exact Nat.mod_eq_of_lt (by simp; omega)

/-- Reading the stack after one entry is written: the word there, and every other entry as before. -/
theorem getElem_set_stack (stack : Vector Word 16) (w : Word) {i : Nat} (hi : i < 16) (j : Fin 16) :
    (stack.set i w hi)[j.val] = if j.val = i then w else stack[j.val] := by
  simp only [Vector.getElem_set, eq_comm]

/-! ## The statements -/

/-- Settles O25: a pop lowers SP and reads the entry below it; with no entry the fault is taken. -/
theorem returnPopsTheAddress : Obligations.ReturnPopsTheAddress := by
  unfold Obligations.ReturnPopsTheAddress
  refine ⟨selects_of_nibble 0x0 0xE rfl rfl decodeWord_ret, fun ign s => ⟨fun hpos hle => ?entry, fun h0 => ?empty⟩⟩
  case entry =>
    have h0 : s.sp ≠ 0 := fun h => by simp [h] at hpos
    have hsp := State.pred_sp_toNat h0
    refine ⟨_, exec_ret_of_entry ign h0 hle, by simp only; omega, fun j hj => ?_, fun _ => rfl,
      unchangedBut_stack_pc s s.stack _ _⟩
    have hj' : Fin.ofNat 16 (s.sp.toNat - 1) = j := Fin.ext (by simp; omega)
    simp only [hj']
  case empty => exact ⟨_, exec_ret_of_empty ign h0, rfl, rfl, rfl, rfl, unchangedBut_raise s _ _⟩

/-- Settles O27: a push writes entry SP and raises SP; with a full stack the fault is taken. -/
theorem callPushesTheReturnAddress : Obligations.CallPushesTheReturnAddress := by
  unfold Obligations.CallPushesTheReturnAddress
  refine ⟨selects_of_family 0x2 rfl decodeWord_call, fun nnn s => ⟨fun hlt => ?room, fun h16 => ?full⟩⟩
  case room =>
    exact ⟨_, exec_call_of_room nnn hlt, succ_sp_toNat hlt, getElem_set_stack s.stack s.pc hlt, zextAddr_toNat nnn,
      unchangedBut_stack_pc s _ _ _⟩
  case full => exact ⟨_, exec_call_of_full nnn h16, rfl, rfl, rfl, rfl, unchangedBut_raise s _ _⟩

/-- Settles O30: the 16-bit sum of an address and a byte is their sum as numbers. -/
theorem jumpPlusV0SetsThePc : Obligations.JumpPlusV0SetsThePc := by
  unfold Obligations.JumpPlusV0SetsThePc
  exact ⟨selects_of_family 0xB rfl decodeWord_jpV0, fun nnn s =>
    ⟨_, exec_jpV0 nnn s, zextAddr_add_zextByte_toNat nnn (s.reg 0), unchangedBut_setPc s _⟩⟩

/-- Settles O24: the frame written is the blank one, which reads as off everywhere. -/
theorem clearTurnsEveryPixelOff : Obligations.ClearTurnsEveryPixelOff := by
  unfold Obligations.ClearTurnsEveryPixelOff
  exact ⟨selects_of_nibble 0x0 0x0 rfl rfl decodeWord_cls, fun ign s =>
    ⟨_, exec_cls ign s, Frame.get_blank, unchangedBut_setFrame s _⟩⟩

/-- Settles O26: the PC written is the address zero-extended. -/
theorem jumpSetsThePc : Obligations.JumpSetsThePc := by
  unfold Obligations.JumpSetsThePc
  exact ⟨selects_of_family 0x1 rfl decodeWord_jp, fun nnn s =>
    ⟨_, exec_jp nnn s, zextAddr_toNat nnn, unchangedBut_setPc s _⟩⟩

/-- Settles O28: both are skips, on equality and on inequality with the immediate. -/
theorem immediateSkipsMoveThePcByTwo : Obligations.ImmediateSkipsMoveThePcByTwo := by
  unfold Obligations.ImmediateSkipsMoveThePcByTwo
  exact ⟨selects_of_family 0x3 rfl decodeWord_seImm, selects_of_family 0x4 rfl decodeWord_sneImm, fun x kk s =>
    ⟨⟨_, exec_seImm x kk s, s.skipIf_beq_pc _ _, unchangedBut_skipIf s _⟩,
      ⟨_, exec_sneImm x kk s, s.skipIf_bne_pc _ _, unchangedBut_skipIf s _⟩⟩⟩

/-- Settles O29: both are skips, on equality and on inequality of the two registers. -/
theorem registerSkipsMoveThePcByTwo : Obligations.RegisterSkipsMoveThePcByTwo := by
  unfold Obligations.RegisterSkipsMoveThePcByTwo
  exact ⟨selects_of_family 0x5 rfl decodeWord_seReg, selects_of_family 0x9 rfl decodeWord_sneReg, fun x y ign s =>
    ⟨⟨_, exec_seReg x y ign s, s.skipIf_beq_pc _ _, unchangedBut_skipIf s _⟩,
      ⟨_, exec_sneReg x y ign s, s.skipIf_bne_pc _ _, unchangedBut_skipIf s _⟩⟩⟩

end Sys2Proof.Machine
end

section
/-! Register arithmetic and logic (41_register_alu.md): what each instruction answers, results and flags as
numbers, and the statements of the family. -/

namespace Sys2Proof.Machine

/-! ## Frames -/

theorem unchangedBut_setReg (s : State) (r : Reg) (b : Byte) : UnchangedBut [.regs] s (s.setReg r b) := by
  apply unchangedBut_of_fields <;> simp

theorem unchangedBut_setRegThenFlag (s : State) (x : Reg) (b f : Byte) :
    UnchangedBut [.regs] s (s.setRegThenFlag x b f) := by
  apply unchangedBut_of_fields <;> simp [State.setRegThenFlag]

/-! ## What each instruction answers -/

theorem exec_ldImm (x : Reg) (kk : Byte) (s : State) : exec (.ldImm x kk) s = .next (s.setReg x kk) := rfl

theorem exec_addImm (x : Reg) (kk : Byte) (s : State) :
    exec (.addImm x kk) s = .next (s.setReg x (s.reg x + kk)) := rfl

theorem exec_ldReg (x y : Reg) (s : State) : exec (.ldReg x y) s = .next (s.setReg x (s.reg y)) := rfl

theorem exec_orReg (x y : Reg) (s : State) : exec (.orReg x y) s = .next (s.setReg x (s.reg x ||| s.reg y)) := rfl

theorem exec_andReg (x y : Reg) (s : State) : exec (.andReg x y) s = .next (s.setReg x (s.reg x &&& s.reg y)) := rfl

theorem exec_xorReg (x y : Reg) (s : State) : exec (.xorReg x y) s = .next (s.setReg x (s.reg x ^^^ s.reg y)) := rfl

theorem exec_addReg (x y : Reg) (s : State) :
    exec (.addReg x y) s = .next (s.setRegThenFlag x (s.reg x + s.reg y) (carry (s.reg x) (s.reg y))) := rfl

theorem exec_subReg (x y : Reg) (s : State) :
    exec (.subReg x y) s = .next (s.setRegThenFlag x (s.reg x - s.reg y) (notBorrow (s.reg x) (s.reg y))) := rfl

theorem exec_subnReg (x y : Reg) (s : State) :
    exec (.subnReg x y) s = .next (s.setRegThenFlag x (s.reg y - s.reg x) (notBorrow (s.reg y) (s.reg x))) := rfl

theorem exec_shr (x : Reg) (ign : Nibble) (s : State) :
    exec (.shr x ign) s = .next (s.setRegThenFlag x (s.reg x >>> 1) (shiftOutRight (s.reg x))) := rfl

theorem exec_shl (x : Reg) (ign : Nibble) (s : State) :
    exec (.shl x ign) s = .next (s.setRegThenFlag x (s.reg x <<< 1) (shiftOutLeft (s.reg x))) := rfl

/-! ## Results as numbers (R171) -/

theorem byte_sub_toNat (a b : Byte) : (a - b).toNat = (a.toNat + 256 - b.toNat) % 256 := by
  have hb := b.isLt
  rw [BitVec.toNat_sub]
  congr 1
  omega

theorem byte_shiftRight_one_toNat (a : Byte) : (a >>> 1).toNat = a.toNat / 2 := by
  rw [BitVec.toNat_ushiftRight, Nat.shiftRight_eq_div_pow]

theorem byte_shiftLeft_one_toNat (a : Byte) : (a <<< 1).toNat = 2 * a.toNat % 256 := by
  rw [BitVec.toNat_shiftLeft, Nat.shiftLeft_eq, Nat.mul_comm]

/-! ## Flags as numbers (10_state.md R38) -/

theorem flagByte_toNat (b : Bool) : (flagByte b).toNat = b.toNat := by
  cases b <;> rfl

/-- A flag that a comparison decides, as the statements write it. -/
theorem flagByte_decide_toNat (p : Prop) [Decidable p] : (flagByte (decide p)).toNat = if p then 1 else 0 := by
  rw [flagByte_toNat, Bool.toNat, Bool.cond_decide]

theorem carry_toNat (a b : Byte) : (carry a b).toNat = if 255 < a.toNat + b.toNat then 1 else 0 :=
  flagByte_decide_toNat _

theorem notBorrow_toNat (a b : Byte) : (notBorrow a b).toNat = if b.toNat ≤ a.toNat then 1 else 0 :=
  flagByte_decide_toNat _

theorem shiftOutRight_toNat (a : Byte) : (shiftOutRight a).toNat = a.toNat % 2 := by
  rw [shiftOutRight, flagByte_toNat, BitVec.getLsbD, Nat.toNat_testBit, Nat.pow_zero, Nat.div_one]

/-- Bit 7 is the top bit of a byte, so what lies above it is 0 and the quotient by 128 is the bit. -/
theorem shiftOutLeft_toNat (a : Byte) : (shiftOutLeft a).toNat = a.toNat / 128 := by
  have ha := a.isLt
  rw [shiftOutLeft, flagByte_toNat, BitVec.getLsbD, Nat.toNat_testBit]
  omega

/-! ## The result and the flag of an answer -/

/-- An instruction that answers a result and then its flag: V[x] is the result unless x is VF, VF is the flag in either
case, and nothing else has changed (R172). -/
theorem exists_next_of_setRegThenFlag {o : Result} {s : State} {x : Reg} {b f : Byte} {result flag : Nat}
    (ho : o = .next (s.setRegThenFlag x b f)) (hb : b.toNat = result) (hf : f.toNat = flag) :
    ∃ t, o = .next t ∧ (x ≠ 15 → (t.reg x).toNat = result) ∧ (t.reg 15).toNat = flag ∧
      (∀ r, r ≠ x → r ≠ 15 → t.reg r = s.reg r) ∧ UnchangedBut [.regs] s t := by
  refine ⟨_, ho, fun hx => ?result, ?flag, fun r hrx hr15 => ?other, unchangedBut_setRegThenFlag s x b f⟩
  case result => rw [State.reg_setRegThenFlag, if_neg hx, if_pos rfl, hb]
  case flag => rw [State.reg_setRegThenFlag, if_pos rfl, hf]
  case other => rw [State.reg_setRegThenFlag, if_neg hr15, if_neg hrx]

/-! ## The statements -/

/-- Settles O32: the byte written to V[x] is the 8-bit sum, and VF is written only as data, when it is V[x]. -/
theorem addImmediateWrapsWithoutFlag : Obligations.AddImmediateWrapsWithoutFlag := by
  unfold Obligations.AddImmediateWrapsWithoutFlag
  refine ⟨selects_of_family 0x7 rfl decodeWord_addImm, fun x kk s =>
    ⟨_, exec_addImm x kk s, ?sum, fun r hr => s.reg_setReg_ne _ hr, unchangedBut_setReg s _ _⟩⟩
  case sum => rw [State.reg_setReg_self, BitVec.toNat_add]

/-- Settles O33: each writes V[x] alone, with the bitwise operation on the two old bytes. -/
theorem logicWorksBitByBitWithoutFlag : Obligations.LogicWorksBitByBitWithoutFlag := by
  unfold Obligations.LogicWorksBitByBitWithoutFlag
  refine ⟨selects_of_nibble 0x8 0x1 rfl rfl decodeWord_orReg, selects_of_nibble 0x8 0x2 rfl rfl decodeWord_andReg,
    selects_of_nibble 0x8 0x3 rfl rfl decodeWord_xorReg, fun x y s =>
    ⟨⟨_, exec_orReg x y s, fun b => ?or, fun r hr => s.reg_setReg_ne _ hr, unchangedBut_setReg s _ _⟩,
      ⟨_, exec_andReg x y s, fun b => ?and, fun r hr => s.reg_setReg_ne _ hr, unchangedBut_setReg s _ _⟩,
      ⟨_, exec_xorReg x y s, fun b => ?xor, fun r hr => s.reg_setReg_ne _ hr, unchangedBut_setReg s _ _⟩⟩⟩
  case or => rw [State.reg_setReg_self, BitVec.getLsbD_or]
  case and => rw [State.reg_setReg_self, BitVec.getLsbD_and]
  case xor => exact State.reg_setReg_self s x _ ▸ BitVec.getLsbD_xor

/-- Settles O34: the result is the 8-bit sum, and the flag written after it is the carry. -/
theorem addSetsCarry : Obligations.AddSetsCarry := by
  unfold Obligations.AddSetsCarry
  exact ⟨selects_of_nibble 0x8 0x4 rfl rfl decodeWord_addReg, fun x y s =>
    exists_next_of_setRegThenFlag (exec_addReg x y s) (BitVec.toNat_add _ _) (carry_toNat _ _)⟩

/-- Settles O35: both answer a difference and then its not-borrow, with the two registers in either order. -/
theorem subtractionsSetNotBorrow : Obligations.SubtractionsSetNotBorrow := by
  unfold Obligations.SubtractionsSetNotBorrow
  exact ⟨selects_of_nibble 0x8 0x5 rfl rfl decodeWord_subReg, selects_of_nibble 0x8 0x7 rfl rfl decodeWord_subnReg,
    fun x y s =>
    ⟨exists_next_of_setRegThenFlag (exec_subReg x y s) (byte_sub_toNat _ _) (notBorrow_toNat _ _),
      exists_next_of_setRegThenFlag (exec_subnReg x y s) (byte_sub_toNat _ _) (notBorrow_toNat _ _)⟩⟩

/-- Settles O36: both answer V[x] shifted by 1 and then the bit shifted out of it, whatever y is. -/
theorem shiftsCaptureTheBitShiftedOut : Obligations.ShiftsCaptureTheBitShiftedOut := by
  unfold Obligations.ShiftsCaptureTheBitShiftedOut
  exact ⟨selects_of_nibble 0x8 0x6 rfl rfl decodeWord_shr, selects_of_nibble 0x8 0xE rfl rfl decodeWord_shl,
    fun x ign s =>
    ⟨exists_next_of_setRegThenFlag (exec_shr x ign s) (byte_shiftRight_one_toNat _) (shiftOutRight_toNat _),
      exists_next_of_setRegThenFlag (exec_shl x ign s) (byte_shiftLeft_one_toNat _) (shiftOutLeft_toNat _)⟩⟩

/-- Settles O31: both are one register write, of the immediate and of the old V[y]. -/
theorem registerLoadsWriteOneRegister : Obligations.RegisterLoadsWriteOneRegister := by
  unfold Obligations.RegisterLoadsWriteOneRegister
  exact ⟨selects_of_family 0x6 rfl decodeWord_ldImm, selects_of_nibble 0x8 0x0 rfl rfl decodeWord_ldReg,
    fun x kk s => ⟨_, exec_ldImm x kk s, fun r => s.reg_setReg x r kk, unchangedBut_setReg s x _⟩,
    fun x y s => ⟨_, exec_ldReg x y s, fun r => s.reg_setReg x r _, unchangedBut_setReg s x _⟩⟩

end Sys2Proof.Machine
end

section
/-! Memory and the index register (42_memory_index.md): what each instruction answers, the frames of the writes it makes,
operands and digits as numbers, and the statements of the family. -/

namespace Sys2Proof.Machine

/-! ## Frames -/

theorem unchangedBut_setI (s : State) (w : Word) : UnchangedBut [.index] s (s.setI w) := by
  apply unchangedBut_of_fields <;> simp

theorem unchangedBut_of_eq_with_mem {s t : State} (h : t = { s with mem := t.mem }) : UnchangedBut [.memory] s t := by
  rw [h]
  apply unchangedBut_of_fields <;> simp

theorem unchangedBut_of_eq_with_v {s t : State} (h : t = { s with v := t.v }) : UnchangedBut [.regs] s t := by
  rw [h]
  apply unchangedBut_of_fields <;> simp

/-! ## What each instruction answers -/

theorem exec_ldI (nnn : Addr) (s : State) : exec (.ldI nnn) s = .next (s.setI (zextAddr nnn)) := rfl

theorem exec_addI (x : Reg) (s : State) : exec (.addI x) s = .next (s.setI (s.i + zextByte (s.reg x))) := rfl

theorem exec_ldF (x : Reg) (s : State) : exec (.ldF x) s = .next (s.setI (glyphAddress (s.reg x))) := rfl

theorem exec_ldB (x : Reg) (s : State) :
    exec (.ldB x) s = .next (((s.memWrite s.i.toNat (hundreds (s.reg x))).memWrite (s.i.toNat + 1)
      (tens (s.reg x))).memWrite (s.i.toNat + 2) (ones (s.reg x))) := rfl

theorem exec_storeRegs (x : Reg) (s : State) : exec (.storeRegs x) s = .next (s.storeFirst (x.val + 1)) := rfl

theorem exec_loadRegs (x : Reg) (s : State) : exec (.loadRegs x) s = .next (s.loadFirst (x.val + 1)) := rfl

/-! ## Operands and digits as numbers -/

theorem add_zextByte_toNat (w : Word) (b : Byte) : (w + zextByte b).toNat = (w.toNat + b.toNat) % 65536 := by
  rw [BitVec.toNat_add, zextByte_toNat]

/-- The glyph of the largest byte is at 0x54B, so an unmasked digit never wraps (R202). -/
theorem glyphAddress_toNat (d : Byte) : (glyphAddress d).toNat = 0x050 + 5 * d.toNat := by
  have hd := d.isLt
  rw [glyphAddress, Config.fontBase, BitVec.toNat_ofNat]
  exact Nat.mod_eq_of_lt (by omega)

theorem hundreds_toNat (b : Byte) : (hundreds b).toNat = b.toNat / 100 :=
  Nat.mod_eq_of_lt (by have hb := b.isLt; omega)

theorem tens_toNat (b : Byte) : (tens b).toNat = b.toNat / 10 % 10 :=
  Nat.mod_eq_of_lt (by omega)

theorem ones_toNat (b : Byte) : (ones b).toNat = b.toNat % 10 :=
  Nat.mod_eq_of_lt (by omega)

/-! ## Three stores in a row -/

/-- Three successive addresses are distinct modulo 4096, so no store overwrites an earlier one, and each byte reads as
the store at its address left it. -/
theorem State.memRead_three_memWrite (s : State) (p a : Nat) (b₀ b₁ b₂ : Byte) :
    (((s.memWrite p b₀).memWrite (p + 1) b₁).memWrite (p + 2) b₂).memRead a =
      if a % 4096 = p % 4096 then b₀
      else if a % 4096 = (p + 1) % 4096 then b₁
      else if a % 4096 = (p + 2) % 4096 then b₂
      else s.memRead a := by
  simp only [State.memRead_memWrite]
  by_cases h₀ : a % 4096 = p % 4096
  · rw [if_neg (by omega), if_neg (by omega), if_pos h₀, if_pos h₀]
  by_cases h₁ : a % 4096 = (p + 1) % 4096
  · rw [if_neg (by omega), if_pos h₁, if_neg h₀, if_pos h₁]
  · simp only [h₀, h₁, if_false]

/-! ## The statements -/

/-- Settles O37: each answers one write of I, whose value as a number is the operand, the 16-bit sum or the glyph's
address. -/
theorem indexInstructionsSetOnlyTheIndex : Obligations.IndexInstructionsSetOnlyTheIndex := by
  unfold Obligations.IndexInstructionsSetOnlyTheIndex
  exact ⟨selects_of_family 0xA rfl decodeWord_ldI, selects_of_byte 0xF 0x1E rfl rfl decodeWord_addI,
    selects_of_byte 0xF 0x29 rfl rfl decodeWord_ldF,
    fun nnn s => ⟨_, exec_ldI nnn s, zextAddr_toNat nnn, unchangedBut_setI s _⟩,
    fun x s => ⟨⟨_, exec_addI x s, add_zextByte_toNat s.i (s.reg x), unchangedBut_setI s _⟩,
      ⟨_, exec_ldF x s, glyphAddress_toNat (s.reg x), unchangedBut_setI s _⟩⟩⟩

/-- Settles O38: the three digits are stored at three distinct addresses, so each byte read is its own digit. -/
theorem decimalStoreWritesThreeDigits : Obligations.DecimalStoreWritesThreeDigits := by
  unfold Obligations.DecimalStoreWritesThreeDigits
  refine ⟨selects_of_byte 0xF 0x33 rfl rfl decodeWord_ldB, fun x s =>
    ⟨_, exec_ldB x s, fun a => ?digits, unchangedBut_of_eq_with_mem rfl⟩⟩
  case digits =>
    rw [State.memRead_three_memWrite]
    simp only [apply_ite BitVec.toNat, hundreds_toNat, tens_toNat, ones_toNat]

/-- Settles O39: the answer is a block store of x + 1 registers, and x + 1 is at most 16. -/
theorem blockStoreWritesEachRegister : Obligations.BlockStoreWritesEachRegister := by
  unfold Obligations.BlockStoreWritesEachRegister
  refine ⟨selects_of_byte 0xF 0x55 rfl rfl decodeWord_storeRegs, fun x s =>
    ⟨_, exec_storeRegs x s, fun a j hj ha => ?stored, fun a ha => ?other,
      unchangedBut_of_eq_with_mem (s.storeFirst_eq _)⟩⟩
  case stored =>
    obtain ⟨hstored, -⟩ := s.memRead_storeFirst _ x.isLt a
    exact hstored j (Nat.lt_succ_of_le hj) ha
  case other =>
    obtain ⟨-, hother⟩ := s.memRead_storeFirst _ x.isLt a
    exact hother fun j hj => ha j (Nat.le_of_lt_succ hj)

/-- Settles O40: the answer is a block load of x + 1 registers, and x + 1 is at most 16. -/
theorem blockLoadReadsEachRegister : Obligations.BlockLoadReadsEachRegister := by
  unfold Obligations.BlockLoadReadsEachRegister
  refine ⟨selects_of_byte 0xF 0x65 rfl rfl decodeWord_loadRegs, fun x s =>
    ⟨_, exec_loadRegs x s, fun j => ?loaded, unchangedBut_of_eq_with_v (s.loadFirst_eq _)⟩⟩
  case loaded =>
    rw [s.reg_loadFirst _ x.isLt j]
    simp only [Nat.lt_succ_iff, Fin.le_def]

end Sys2Proof.Machine
end

section
/-! Keyboard and timers (44_keyboard_timers.md): what each instruction answers, the cycle that ends with the tick, and the
statements of the family. -/

namespace Sys2Proof.Machine

/-! ## Frames -/

theorem unchangedBut_setDt (s : State) (b : Byte) : UnchangedBut [.delayTimer] s (s.setDt b) := by
  apply unchangedBut_of_fields <;> simp

theorem unchangedBut_setSt (s : State) (b : Byte) : UnchangedBut [.soundTimer] s (s.setSt b) := by
  apply unchangedBut_of_fields <;> simp

/-! ## Which words select the timer instructions -/

theorem selects_ldVxDt : Selects 0xF0FF 0xF007 (fun w => .ldVxDt (fieldX w)) :=
  selects_of_byte 0xF 0x07 rfl rfl decodeWord_ldVxDt

theorem selects_ldDtVx : Selects 0xF0FF 0xF015 (fun w => .ldDtVx (fieldX w)) :=
  selects_of_byte 0xF 0x15 rfl rfl decodeWord_ldDtVx

theorem selects_ldStVx : Selects 0xF0FF 0xF018 (fun w => .ldStVx (fieldX w)) :=
  selects_of_byte 0xF 0x18 rfl rfl decodeWord_ldStVx

/-! ## What each instruction answers -/

theorem exec_skp (x : Reg) (ign : Nibble) (s : State) :
    exec (.skp x ign) s = .next (s.skipIf (s.key (keyOf (s.reg x)))) := rfl

theorem exec_sknp (x : Reg) (ign : Nibble) (s : State) :
    exec (.sknp x ign) s = .next (s.skipIf (!s.key (keyOf (s.reg x)))) := rfl

theorem exec_ldVxDt (x : Reg) (s : State) : exec (.ldVxDt x) s = .next (s.setReg x s.dt) := rfl

theorem exec_ldDtVx (x : Reg) (s : State) : exec (.ldDtVx x) s = .next (s.setDt (s.reg x)) := rfl

theorem exec_ldStVx (x : Reg) (s : State) : exec (.ldStVx x) s = .next (s.setSt (s.reg x)) := rfl

/-- LD Vx, K with no key held goes back to its own address (R245). -/
theorem exec_ldVxK_of_no_key {s : State} (x : Reg) (h : ∀ k, s.key k = false) :
    exec (.ldVxK x) s = .next (s.setPc (s.pc - 2)) := by
  change execLdVxK x s = _
  rw [execLdVxK, s.lowestKey_eq_none.2 h]

/-- LD Vx, K takes the lowest held key (R245). -/
theorem exec_ldVxK_of_lowest {s : State} {k : Key} (x : Reg) (hk : s.key k = true) (hlow : ∀ j, j < k → s.key j = false) :
    exec (.ldVxK x) s = .next (s.setReg x (BitVec.ofNat 8 k.val)) := by
  change execLdVxK x s = _
  rw [execLdVxK, s.lowestKey_eq_some.2 ⟨hk, hlow⟩]

/-! ## Keys and skips -/

theorem keyOf_eq {b : Byte} {k : Key} (h : k.val = b.toNat % 16) : keyOf b = k := Fin.ext h.symm

/-- A key number fits a byte. -/
theorem keyByte_toNat (k : Key) : (BitVec.ofNat 8 k.val).toNat = k.val :=
  Nat.mod_eq_of_lt (Nat.lt_trans k.isLt (by decide))

/-- A skip on a condition that does not hold, as the statements write it. -/
theorem State.skipIf_not_pc (s : State) (c : Bool) : (s.skipIf (!c)).pc = if c then s.pc else s.pc + 2 := by
  cases c <;> rfl

/-! ## The cycle -/

/-- A cycle whose word selects an instruction that raises no fault is the fetch's PC advance, the instruction and the
tick (70_reset_and_hazards.md R350, R352). -/
theorem step_of_selects {mask value : Word} {f : Word → Instr} {s u : State} (hsel : Selects mask value f)
    (hs : s.fault = .none) (hw : s.fetchWord &&& mask = value) (hu : exec (f s.fetchWord) s.advancePc = .next u)
    (huf : u.fault = .none) : step s = .next u.tick := by
  rw [← hsel s.fetchWord hw] at hu
  exact (step_of_exec hs hu).trans (congrArg _ (State.finishCycle_of_no_fault huf))

/-! ## The statements -/

/-- Settles O44: the register is written with DT before the tick, and the tick then lowers the DT that the instruction
left alone. -/
theorem delayTimerIsReadBeforeTheTick : Obligations.DelayTimerIsReadBeforeTheTick := by
  unfold Obligations.DelayTimerIsReadBeforeTheTick
  refine ⟨selects_ldVxDt, fun x s => ⟨_, exec_ldVxDt x s, fun r => s.reg_setReg x r _, unchangedBut_setReg s x _⟩,
    fun s hs hw => ⟨_, step_of_selects selects_ldVxDt hs hw (exec_ldVxDt _ _) hs, ?read, countDown_toNat s.dt⟩⟩
  case read => exact (State.reg_eq_of_v (State.tick_v _) _).trans (State.reg_setReg_self _ _ _)

/-- Settles O45: each writes its timer with V[x], and the tick that ends the cycle counts that value down. -/
theorem timerWritesTickInTheSameCycle : Obligations.TimerWritesTickInTheSameCycle := by
  unfold Obligations.TimerWritesTickInTheSameCycle
  refine ⟨selects_ldDtVx, selects_ldStVx, fun x s => ⟨?dt, ?st⟩, fun s hs => ⟨fun hw => ?dtCycle, fun hw => ?stCycle⟩⟩
  case dt => exact ⟨_, exec_ldDtVx x s, rfl, unchangedBut_setDt s _⟩
  case st => exact ⟨_, exec_ldStVx x s, rfl, unchangedBut_setSt s _⟩
  case dtCycle => exact ⟨_, step_of_selects selects_ldDtVx hs hw (exec_ldDtVx _ _) hs, countDown_toNat _⟩
  case stCycle => exact ⟨_, step_of_selects selects_ldStVx hs hw (exec_ldStVx _ _) hs, countDown_toNat _, rfl⟩

/-- Settles O46: the search for the lowest held key finds none, or the key that no lower one precedes. -/
theorem keyWaitTakesTheLowestKey : Obligations.KeyWaitTakesTheLowestKey := by
  unfold Obligations.KeyWaitTakesTheLowestKey
  refine ⟨selects_of_byte 0xF 0x0A rfl rfl decodeWord_ldVxK, fun x s => ⟨fun hnone => ?waits, fun k hk hlow => ?takes⟩⟩
  case waits => exact ⟨_, exec_ldVxK_of_no_key x hnone, rfl, unchangedBut_setPc s _⟩
  case takes =>
    refine ⟨_, exec_ldVxK_of_lowest x hk hlow, ?_, fun r hr => s.reg_setReg_ne _ hr, unchangedBut_setReg s x _⟩
    rw [State.reg_setReg_self, keyByte_toNat]

/-- Settles O43: both are skips, on the key numbered V[x] modulo 16 being held and on it being released. -/
theorem keySkipsTestTheLatch : Obligations.KeySkipsTestTheLatch := by
  unfold Obligations.KeySkipsTestTheLatch
  refine ⟨selects_of_nibble 0xE 0xE rfl rfl decodeWord_skp, selects_of_nibble 0xE 0x1 rfl rfl decodeWord_sknp,
    fun x ign k s hk => ?_⟩
  have hkey := keyOf_eq hk
  exact ⟨⟨_, exec_skp x ign s, hkey ▸ s.skipIf_pc _, unchangedBut_skipIf s _⟩,
    ⟨_, exec_sknp x ign s, hkey ▸ s.skipIf_not_pc _, unchangedBut_skipIf s _⟩⟩

end Sys2Proof.Machine
end

section
/-! Display (45_display.md): what DRW answers, its frame, the flag of a collision, and the statement of the family. -/

namespace Sys2Proof.Machine

theorem exec_drw (x y : Reg) (n : Nibble) (s : State) :
    exec (.drw x y n) s = .next ((s.setFrame (s.drawRows (s.reg x) (s.reg y) n.toNat).frame).setReg 15
      (flagByte (s.drawRows (s.reg x) (s.reg y) n.toNat).collision)) := rfl

theorem unchangedBut_setFrame_setReg (s : State) (f : Frame) (r : Reg) (b : Byte) :
    UnchangedBut [.regs, .display] s ((s.setFrame f).setReg r b) := by
  apply unchangedBut_of_fields <;> simp

/-- A sprite has at most 15 rows, so no two of them share a screen row. -/
theorem nibble_toNat_le_32 (n : Nibble) : n.toNat ≤ 32 :=
  n.isLt.le.trans (by decide)

/-- The flag of a sprite that covers a pixel that was on (R271). -/
theorem flagByte_collision_of_covered {s : State} {vx vy : Byte} {k : Nat} (hk : k ≤ 32)
    (h : ∃ px py, s.SpriteCovers vx vy k px py ∧ s.pixel px py = true) :
    flagByte (s.drawRows vx vy k).collision = 1 :=
  congrArg flagByte ((s.collision_drawRows vx vy k hk).2 h)

/-- The flag of a sprite that covers no pixel that was on (R271). -/
theorem flagByte_collision_of_not_covered {s : State} {vx vy : Byte} {k : Nat} (hk : k ≤ 32)
    (h : ¬ ∃ px py, s.SpriteCovers vx vy k px py ∧ s.pixel px py = true) :
    flagByte (s.drawRows vx vy k).collision = 0 :=
  congrArg flagByte (Bool.eq_false_iff.2 (mt (s.collision_drawRows vx vy k hk).1 h))

/-- Settles O48: the frame written toggles what the sprite covers, and the flag written after it is the collision. -/
theorem drawTogglesThePixelsCovered : Obligations.DrawTogglesThePixelsCovered := by
  unfold Obligations.DrawTogglesThePixelsCovered
  refine ⟨selects_of_family 0xD rfl decodeWord_drw, fun x y n s => ?_⟩
  have hn := nibble_toNat_le_32 n
  have hframe := s.get_drawRows (s.reg x) (s.reg y) n.toNat hn
  refine ⟨_, exec_drw x y n s, fun px py => ?covered, fun px py => ?uncovered, fun h => ?collides, fun h => ?clear,
    fun r hr => State.reg_setReg_ne _ _ hr, unchangedBut_setFrame_setReg s _ _ _⟩
  case covered => exact (hframe px py).1
  case uncovered => exact (hframe px py).2
  case collides => rw [State.reg_setReg_self, flagByte_collision_of_covered hn h]
  case clear => rw [State.reg_setReg_self, flagByte_collision_of_not_covered hn h]

end Sys2Proof.Machine
end

section
/-! Faults and the host interface (60_exceptions.md): which instruction can raise a fault, what the cycle that raises one
leaves, and the frame as the host reads it. -/

namespace Sys2Proof

/-- Encoding gives back the word that was decoded, ignored bits included (log 7). -/
theorem encode_decodeWord (w : Word) : encode (decodeWord w) = w := by
  apply decodeWord_cases w (fun i => encode i = w)
  case cls | ret => exact formZ_fields
  case jp | call | ldI | jpV0 => exact formA_fields
  case seImm | sneImm | ldImm | addImm | rnd => exact fun h => formXK_fields h rfl
  case seReg | sneReg | drw => exact fun h => formXYN_fields h rfl
  case ldReg | orReg | andReg | xorReg | addReg | subReg | subnReg => exact formXYN_fields
  case shr | shl | skp | sknp => exact formXNN_fields
  case ldVxDt | ldVxK | ldDtVx | ldStVx | addI | ldF | ldB | storeRegs | loadRegs => exact formXK_fields
  case nop => exact fun _ => rfl

/-- The word of a decoded instruction matches the instruction's row of the opcode map (30_encoding.md R116). -/
theorem and_rowMask_of_decodeWord {w : Word} {i : Instr} (hd : decodeWord w = i) (hi : Laws.EncodesRow.Statement i) :
    w &&& i.rowMask = i.rowMatch := by
  subst hd
  rwa [Laws.EncodesRow.Statement, encode_decodeWord] at hi

end Sys2Proof

namespace Sys2Proof.Machine

/-! ## Which instructions raise a fault -/

theorem selects_call : Selects 0xF000 0x2000 (fun w => .call (fieldNNN w)) :=
  selects_of_family 0x2 rfl decodeWord_call

theorem selects_ret : Selects 0xF00F 0x000E (fun w => .ret (fieldOuter w)) :=
  selects_of_nibble 0x0 0xE rfl rfl decodeWord_ret

/-- An instruction leaves FAULT as it was, or is a CALL with a full stack or a RET with an empty one and takes its fault
with the whole word (60_exceptions.md R301, R302). -/
theorem exec_next_fault {i : Instr} {s t : State} (h : exec i s = .next t) :
    t.fault = s.fault ∨
    (s.sp = 16 ∧ t = s.raise .stackOverflow (encode i) ∧ ∃ nnn, i = .call nnn) ∨
    (s.sp = 0 ∧ t = s.raise .stackUnderflow (encode i) ∧ ∃ ign, i = .ret ign) := by
  rcases exec_next_cases h with ht | ht | ht | ht | ⟨ht, -⟩ | ht | ⟨ht, -⟩ | hcall | hret
  iterate 7 exact .inl (by rw [ht])
  · exact .inr (.inl hcall)
  · exact .inr (.inr hret)

/-- With SP 0 to 16 every instruction answers a next state: the model's own stop is for SP above 16 (log 5). -/
theorem exec_next_of_sp_le {s : State} (i : Instr) (h : s.sp.toNat ≤ 16) : ∃ t, exec i s = .next t := by
  cases i with
  | call nnn =>
    rcases h.lt_or_eq with hlt | heq
    · exact ⟨_, exec_call_of_room nnn hlt⟩
    · exact ⟨_, exec_call_of_full nnn (BitVec.eq_of_toNat_eq heq)⟩
  | ret ign =>
    by_cases h0 : s.sp = 0
    · exact ⟨_, exec_ret_of_empty ign h0⟩
    · exact ⟨_, exec_ret_of_entry ign h0 h⟩
  | ldVxK x =>
    cases hk : s.lowestKey with
    | none => exact ⟨_, exec_ldVxK_of_no_key x (s.lowestKey_eq_none.1 hk)⟩
    | some k =>
      obtain ⟨hheld, hlow⟩ := s.lowestKey_eq_some.1 hk
      exact ⟨_, exec_ldVxK_of_lowest x hheld hlow⟩
  | _ => exact ⟨_, rfl⟩

/-! ## The cycle that raises a fault -/

/-- A cycle that raises a fault ends in the state it started with and the latch written (60_exceptions.md R303). -/
theorem step_raises {s t : State} (hs : s.fault = .none) (h : step s = .next t) (ht : t.fault ≠ .none) :
    ∃ c, t = { s with fault := c, faultPc := s.pc, faultWord := s.fetchWord } := by
  obtain ⟨hlatched, -⟩ | ⟨-, u, hu, rfl⟩ := step_next_iff.1 h
  · exact absurd hs hlatched
  have huf : u.fault ≠ .none := u.finishCycle_fault ▸ ht
  rw [u.finishCycle_eq, if_neg huf]
  obtain hsame | ⟨-, hraise, -⟩ | ⟨-, hraise, -⟩ := exec_next_fault hu
  · exact absurd (hsame.trans hs) huf
  all_goals
    rw [State.raise_advancePc, encode_decodeWord] at hraise
    exact ⟨_, hraise⟩

/-- With a fault latched a cycle returns it (60_exceptions.md R304, R321). -/
theorem State.cycleResult_of_faulted {s : State} (h : s.fault ≠ .none) :
    s.cycleResult = .fault s.fault.code s.faultPc s.faultWord :=
  if_neg h

/-! ## The frame as the host reads it -/

/-- In the concatenation of blocks of length `n`, position `i * n + j` is position `j` of block `i`. -/
theorem getElem?_flatMap_of_length {α β : Type} {f : α → List β} {n : Nat} (hf : ∀ a, (f a).length = n)
    (l : List α) {i j : Nat} (hi : i < l.length) (hj : j < n) :
    (l.flatMap f)[i * n + j]? = (f l[i])[j]? := by
  induction l generalizing i with
  | nil => exact absurd hi (Nat.not_lt_zero i)
  | cons a l ih =>
    rw [List.flatMap_cons]
    cases i with
    | zero => simp [List.getElem?_append_left, hf, hj]
    | succ i =>
      have hpast : (i + 1) * n + j - n = i * n + j := by rw [Nat.succ_mul]; omega
      rw [List.getElem?_append_right (by rw [hf, Nat.succ_mul]; omega), hf, hpast]
      exact ih (Nat.lt_of_succ_lt_succ hi)

/-! ## The statements -/

/-- Settles O19: fault entry undoes the fetch and the cycle ends without a tick, so the latch is all that is written. -/
theorem faultingCycleChangesOnlyTheLatch : Obligations.FaultingCycleChangesOnlyTheLatch := by
  unfold Obligations.FaultingCycleChangesOnlyTheLatch
  intro s t hs h ht
  obtain ⟨c, rfl⟩ := step_raises hs h ht
  exact ⟨rfl, State.cycleResult_of_faulted ht⟩

/-- Settles O20: the cycle answers because SP is 0 to 16, and its FAULT is the instruction's: a full CALL's, an empty
RET's, or the one before the cycle. -/
theorem onlyFullCallAndEmptyReturnFault : Obligations.OnlyFullCallAndEmptyReturnFault := by
  unfold Obligations.OnlyFullCallAndEmptyReturnFault
  intro s hs hsp
  obtain ⟨u, hu⟩ := exec_next_of_sp_le (s := s.advancePc) (decodeWord s.fetchWord) hsp
  refine ⟨_, step_of_exec hs hu, ?_⟩
  rw [State.finishCycle_fault]
  by_cases hcall : s.fetchWord &&& 0xF000 = 0x2000 ∧ s.sp = 16
  · obtain ⟨hw, h16⟩ := hcall
    rw [selects_call _ hw, exec_call_of_full (s := s.advancePc) _ h16] at hu
    rw [if_pos ⟨hw, h16⟩, ← Host.Outcome.next.inj hu, State.raise_fault]
  by_cases hret : s.fetchWord &&& 0xF00F = 0x000E ∧ s.sp = 0
  · obtain ⟨hw, h0⟩ := hret
    rw [selects_ret _ hw, exec_ret_of_empty (s := s.advancePc) _ h0] at hu
    rw [if_neg hcall, if_pos ⟨hw, h0⟩, ← Host.Outcome.next.inj hu, State.raise_fault]
  rw [if_neg hcall, if_neg hret]
  obtain hsame | ⟨h16, -, nnn, hd⟩ | ⟨h0, -, ign, hd⟩ := exec_next_fault hu
  · exact hsame.trans hs
  · exact absurd ⟨and_rowMask_of_decodeWord hd (Laws.EncodesRow.call nnn), h16⟩ hcall
  · exact absurd ⟨and_rowMask_of_decodeWord hd (Laws.EncodesRow.ret ign), h0⟩ hret

/-- Settles O23: the cells read are 32 blocks of 64, block py being row py. -/
theorem hostReadsTheFrameRowMajor : Obligations.HostReadsTheFrameRowMajor := by
  unfold Obligations.HostReadsTheFrameRowMajor
  refine fun s => ⟨by simp [State.readFramebuffer, List.length_flatMap], fun px py => ?_⟩
  rw [State.readFramebuffer, getElem?_flatMap_of_length (n := 64) (by simp) _ (by simp) px.isLt]
  simp [hostPixel]

/-- Settles O18: a step from a latched fault stands still, a key write reaches the keys alone, and a load starts from the
reset machine and stores bytes. -/
theorem faultedMachineStaysAsItIs : Obligations.FaultedMachineStaysAsItIs := by
  unfold Obligations.FaultedMachineStaysAsItIs
  refine ⟨fun s h => ⟨step_of_faulted h, State.cycleResult_of_faulted h⟩, fun _ => rfl, fun s k held => ?key,
    fun bytes m hload => ?load, rfl, rfl⟩
  case key => exact ⟨s.writeKey_fault k held, s.writeKey_faultPc k held, s.writeKey_faultWord k held⟩
  case load =>
    obtain ⟨-, rfl⟩ := State.load_ok_iff.1 hload
    rw [State.storeBytes_eq]
    exact ⟨rfl, rfl, rfl⟩

end Sys2Proof.Machine
end

section
/-! Load, reset and the tick (70_reset_and_hazards.md): the reset machine as the statements read it, what an instruction
leaves of the timers, and the statements of the family. -/

namespace Sys2Proof.Machine

/-! ## The reset machine (10_state.md R49) -/

theorem State.reg_reset (r : Reg) : State.reset.reg r = 0 := Vector.getElem_replicate r.isLt

theorem State.stackAt_reset (j : Fin 16) : State.reset.stackAt j = 0 := Vector.getElem_replicate j.isLt

theorem State.key_reset (k : Key) : State.reset.key k = false := Vector.getElem_replicate k.isLt

theorem State.pixel_reset (px : Col) (py : Row) : State.reset.pixel px py = false := Frame.get_blank px py

/-- Reset memory lists no cell, so each address reads as the font or as zero. -/
theorem State.memRead_reset {a : Nat} (ha : a < 4096) : State.reset.memRead a = initialByte a :=
  congrArg initialByte (Nat.mod_eq_of_lt ha)

/-! ## The timers after an instruction -/

/-- An instruction leaves DT unless it is LD DT, Vx, and ST unless it is LD ST, Vx. -/
theorem exec_next_timers {i : Instr} {s t : State} (h : exec i s = .next t) :
    (t.dt = s.dt ∨ ∃ x, i = .ldDtVx x) ∧ (t.st = s.st ∨ ∃ x, i = .ldStVx x) := by
  cases i with
  | ldDtVx x =>
    obtain rfl := Host.Outcome.next.inj h
    exact ⟨.inr ⟨x, rfl⟩, .inl rfl⟩
  | ldStVx x =>
    obtain rfl := Host.Outcome.next.inj h
    exact ⟨.inl rfl, .inr ⟨x, rfl⟩⟩
  | call nnn => obtain ⟨-, rfl⟩ | ⟨-, rfl⟩ := execCall_next_iff.1 h <;> exact ⟨.inl rfl, .inl rfl⟩
  | ret ign => obtain ⟨-, rfl⟩ | ⟨-, -, rfl⟩ := execRet_next_iff.1 h <;> exact ⟨.inl rfl, .inl rfl⟩
  | ldVxK x =>
    cases hk : s.lowestKey with
    | none =>
      rw [exec_ldVxK_of_no_key x (s.lowestKey_eq_none.1 hk)] at h
      obtain rfl := Host.Outcome.next.inj h
      exact ⟨.inl rfl, .inl rfl⟩
    | some k =>
      obtain ⟨hheld, hlow⟩ := s.lowestKey_eq_some.1 hk
      rw [exec_ldVxK_of_lowest x hheld hlow] at h
      obtain rfl := Host.Outcome.next.inj h
      exact ⟨.inl rfl, .inl rfl⟩
  | seImm x kk | sneImm x kk | seReg x y ign | sneReg x y ign | skp x ign | sknp x ign =>
    obtain rfl := Host.Outcome.next.inj h
    rw [State.skipIf_eq]
    exact ⟨.inl rfl, .inl rfl⟩
  | storeRegs x =>
    obtain rfl := Host.Outcome.next.inj h
    rw [State.storeFirst_eq]
    exact ⟨.inl rfl, .inl rfl⟩
  | loadRegs x =>
    obtain rfl := Host.Outcome.next.inj h
    rw [State.loadFirst_eq]
    exact ⟨.inl rfl, .inl rfl⟩
  | _ =>
    obtain rfl := Host.Outcome.next.inj h
    exact ⟨.inl rfl, .inl rfl⟩

/-- DT after the instruction of a word: V[x] for Fx15, and as it was for every other word. -/
theorem exec_decodeWord_dt {w : Word} {s t : State} (h : exec (decodeWord w) s = .next t) :
    t.dt = if w &&& 0xF0FF = 0xF015 then s.reg (fieldX w) else s.dt := by
  by_cases hw : w &&& 0xF0FF = 0xF015
  · rw [selects_ldDtVx w hw, exec_ldDtVx] at h
    rw [if_pos hw, ← Host.Outcome.next.inj h, State.setDt_dt]
  · rw [if_neg hw]
    obtain hsame | ⟨x, hd⟩ := (exec_next_timers h).1
    · exact hsame
    · exact absurd (and_rowMask_of_decodeWord hd (Laws.EncodesRow.ldDtVx x)) hw

/-- ST after the instruction of a word: V[x] for Fx18, and as it was for every other word. -/
theorem exec_decodeWord_st {w : Word} {s t : State} (h : exec (decodeWord w) s = .next t) :
    t.st = if w &&& 0xF0FF = 0xF018 then s.reg (fieldX w) else s.st := by
  by_cases hw : w &&& 0xF0FF = 0xF018
  · rw [selects_ldStVx w hw, exec_ldStVx] at h
    rw [if_pos hw, ← Host.Outcome.next.inj h, State.setSt_st]
  · rw [if_neg hw]
    obtain hsame | ⟨x, hd⟩ := (exec_next_timers h).2
    · exact hsame
    · exact absurd (and_rowMask_of_decodeWord hd (Laws.EncodesRow.ldStVx x)) hw

/-! ## The statements -/

/-- Settles O10: a cycle that ends without a fault is the instruction and then the tick, and the fetch before it leaves
registers and timers alone. -/
theorem timersTickAfterTheInstruction : Obligations.TimersTickAfterTheInstruction := by
  unfold Obligations.TimersTickAfterTheInstruction
  intro s t hs h ht
  obtain ⟨hlatched, -⟩ | ⟨-, u, hu, rfl⟩ := step_next_iff.1 h
  · exact absurd hs hlatched
  have huf : u.fault = .none := u.finishCycle_fault ▸ ht
  rw [State.finishCycle_of_no_fault huf]
  refine ⟨(countDown_toNat u.dt).trans ?dt, (countDown_toNat u.st).trans ?st⟩
  case dt => exact congrArg (·.toNat - 1) (exec_decodeWord_dt hu)
  case st => exact congrArg (·.toNat - 1) (exec_decodeWord_st hu)

/-- Settles O17: an image that fits is stored in the reset machine's memory, which is all that storing bytes changes. -/
theorem loadBuildsTheResetMachine : Obligations.LoadBuildsTheResetMachine := by
  unfold Obligations.LoadBuildsTheResetMachine
  refine fun bytes => ⟨fun hlen => ?fits, State.load_eq_error⟩
  have hload := State.load_eq_ok hlen
  rw [State.storeBytes_eq] at hload
  refine ⟨_, hload, State.reg_reset, rfl, rfl, rfl, State.stackAt_reset, rfl, rfl, State.key_reset, State.pixel_reset,
    rfl, rfl, rfl, fun a ha => ?memory⟩
  have hend : Config.programOrigin + bytes.length ≤ 4096 := Nat.add_le_add_left hlen 0x200
  have hread := State.memRead_storeBytes State.reset Config.programOrigin bytes hend a ha
  rw [State.memRead_reset ha] at hread
  exact hread

end Sys2Proof.Machine
end

section
/-! Decoding and encoding (30_encoding.md): each undoes the other, and each word matches the row it decodes to alone. -/

namespace Sys2Proof

open Machine

/-! ## Decoding an encoded instruction -/

@[simp] theorem fieldFamily_formXYN (f : Nibble) (x y : Reg) (n : Nibble) : fieldFamily (formXYN f x y n) = f :=
  fieldFamily_formXNN f x (BitVec.ofFin y) n

@[simp] theorem fieldX_formXYN (f : Nibble) (x y : Reg) (n : Nibble) : fieldX (formXYN f x y n) = x :=
  fieldX_formXNN f x (BitVec.ofFin y) n

@[simp] theorem fieldY_formXYN (f : Nibble) (x y : Reg) (n : Nibble) : fieldY (formXYN f x y n) = y :=
  fieldY_formXNN f x (BitVec.ofFin y) n

@[simp] theorem fieldN_formXYN (f : Nibble) (x y : Reg) (n : Nibble) : fieldN (formXYN f x y n) = n :=
  fieldN_formXNN f x (BitVec.ofFin y) n

/-- Decoding gives back the instruction that was encoded: the encoder's form has the family and the selector that choose
the instruction, and its fields are the operands (30_encoding.md R116; log 7). -/
theorem decodeWord_encode {i : Instr} (h : i.wellFormed = true) : decodeWord (encode i) = i := by
  cases i with
  | cls ign | ret ign => simp [encode, decodeWord_cls, decodeWord_ret]
  | jp nnn | call nnn | ldI nnn | jpV0 nnn =>
    simp [encode, decodeWord_jp, decodeWord_call, decodeWord_ldI, decodeWord_jpV0]
  | seImm x kk | sneImm x kk | ldImm x kk | addImm x kk | rnd x kk =>
    simp [encode, decodeWord_seImm, decodeWord_sneImm, decodeWord_ldImm, decodeWord_addImm, decodeWord_rnd]
  | seReg x y n | sneReg x y n | drw x y n => simp [encode, decodeWord_seReg, decodeWord_sneReg, decodeWord_drw]
  | ldReg x y | orReg x y | andReg x y | xorReg x y =>
    simp [encode, decodeWord_ldReg, decodeWord_orReg, decodeWord_andReg, decodeWord_xorReg]
  | addReg x y | subReg x y | subnReg x y =>
    simp [encode, decodeWord_addReg, decodeWord_subReg, decodeWord_subnReg]
  | shr x ign | shl x ign => simp [encode, decodeWord_shr, decodeWord_shl]
  | skp x ign | sknp x ign => simp [encode, decodeWord_skp, decodeWord_sknp]
  | ldVxDt x | ldVxK x | ldDtVx x | ldStVx x =>
    simp [encode, decodeWord_ldVxDt, decodeWord_ldVxK, decodeWord_ldDtVx, decodeWord_ldStVx]
  | addI x | ldF x | ldB x => simp [encode, decodeWord_addI, decodeWord_ldF, decodeWord_ldB]
  | storeRegs x | loadRegs x => simp [encode, decodeWord_storeRegs, decodeWord_loadRegs]
  | nop w => exact decodeWord_nop h

/-- Decoding two bytes and a rest: the instruction of their word, and the rest (R100). -/
theorem decode_cons_cons (hi lo : Byte) (rest : List Byte) :
    decode (hi :: lo :: rest) = .ok (decodeWord (wordOfBytes hi lo), rest) := rfl

/-- Settles O3: the fields of the encoder's form are the instruction's operands, and its two bytes make up its word. -/
theorem decodeOfEncodeIsTheInstruction : Obligations.DecodeOfEncodeIsTheInstruction := by
  unfold Obligations.DecodeOfEncodeIsTheInstruction
  intro i rest hi
  have hword := decodeWord_encode hi
  exact ⟨hword, by rw [decode_cons_cons, wordOfBytes_high_low, hword]⟩

/-! ## Encoding a decoded word -/

/-- A word decodes to NOP only if no other instruction claims it. -/
theorem decodeWord_wellFormed (w : Word) : (decodeWord w).wellFormed = true := by
  apply decodeWord_cases w (fun i => i.wellFormed = true)
  case nop => exact id
  all_goals intros; rfl

/-- Settles O4: the decoder splits a word into the fields that the encoder puts together again. -/
theorem encodeOfDecodeIsTheWord : Obligations.EncodeOfDecodeIsTheWord := by
  unfold Obligations.EncodeOfDecodeIsTheWord
  exact fun w => ⟨decodeWord_wellFormed w, encode_decodeWord w⟩

/-! ## The rows of the opcode map (30_encoding.md R116) -/

/-- Every encoded word matches its instruction's row. -/
theorem Laws.EncodesRow.all : ∀ i : Instr, Statement i
  | .cls ign => cls ign
  | .ret ign => ret ign
  | .jp nnn => jp nnn
  | .call nnn => call nnn
  | .seImm x kk => seImm x kk
  | .sneImm x kk => sneImm x kk
  | .seReg x y ign => seReg x y ign
  | .ldImm x kk => ldImm x kk
  | .addImm x kk => addImm x kk
  | .ldReg x y => ldReg x y
  | .orReg x y => orReg x y
  | .andReg x y => andReg x y
  | .xorReg x y => xorReg x y
  | .addReg x y => addReg x y
  | .subReg x y => subReg x y
  | .shr x ign => shr x ign
  | .subnReg x y => subnReg x y
  | .shl x ign => shl x ign
  | .sneReg x y ign => sneReg x y ign
  | .ldI nnn => ldI nnn
  | .jpV0 nnn => jpV0 nnn
  | .rnd x kk => rnd x kk
  | .drw x y n => drw x y n
  | .skp x ign => skp x ign
  | .sknp x ign => sknp x ign
  | .ldVxDt x => ldVxDt x
  | .ldVxK x => ldVxK x
  | .ldDtVx x => ldDtVx x
  | .ldStVx x => ldStVx x
  | .addI x => addI x
  | .ldF x => ldF x
  | .ldB x => ldB x
  | .storeRegs x => storeRegs x
  | .loadRegs x => loadRegs x
  | .nop w => nop w

/-- A word matches the row of what it decodes to. -/
theorem and_rowMask_decodeWord (w : Word) : w &&& (decodeWord w).rowMask = (decodeWord w).rowMatch :=
  and_rowMask_of_decodeWord rfl (Laws.EncodesRow.all _)

/-- A word that matches a row is of the row of what the row selects. -/
theorem row_of_selects {mask value w : Word} {f : Word → Instr} (hsel : Selects mask value f) (h : w &&& mask = value)
    (hrow : ∀ v, (f v).rowMask = mask ∧ (f v).rowMatch = value := by exact fun _ => ⟨rfl, rfl⟩) :
    (decodeWord w).rowMask = mask ∧ (decodeWord w).rowMatch = value :=
  hsel w h ▸ hrow w

/-- A word that matches the row of an instruction other than NOP has the family and the selector of that row, which
select an instruction of the same row. -/
theorem row_decodeWord_of_match {w : Word} {i : Instr} (hi : i.rowMask ≠ 0) (h : w &&& i.rowMask = i.rowMatch) :
    (decodeWord w).rowMask = i.rowMask ∧ (decodeWord w).rowMatch = i.rowMatch := by
  cases i with
  | cls => exact row_of_selects (selects_of_nibble (v := 0x0000) 0x0 0x0 rfl rfl decodeWord_cls) h
  | ret => exact row_of_selects (selects_of_nibble (v := 0x000E) 0x0 0xE rfl rfl decodeWord_ret) h
  | jp => exact row_of_selects (selects_of_family (v := 0x1000) 0x1 rfl decodeWord_jp) h
  | call => exact row_of_selects (selects_of_family (v := 0x2000) 0x2 rfl decodeWord_call) h
  | seImm => exact row_of_selects (selects_of_family (v := 0x3000) 0x3 rfl decodeWord_seImm) h
  | sneImm => exact row_of_selects (selects_of_family (v := 0x4000) 0x4 rfl decodeWord_sneImm) h
  | seReg => exact row_of_selects (selects_of_family (v := 0x5000) 0x5 rfl decodeWord_seReg) h
  | ldImm => exact row_of_selects (selects_of_family (v := 0x6000) 0x6 rfl decodeWord_ldImm) h
  | addImm => exact row_of_selects (selects_of_family (v := 0x7000) 0x7 rfl decodeWord_addImm) h
  | ldReg => exact row_of_selects (selects_of_nibble (v := 0x8000) 0x8 0x0 rfl rfl decodeWord_ldReg) h
  | orReg => exact row_of_selects (selects_of_nibble (v := 0x8001) 0x8 0x1 rfl rfl decodeWord_orReg) h
  | andReg => exact row_of_selects (selects_of_nibble (v := 0x8002) 0x8 0x2 rfl rfl decodeWord_andReg) h
  | xorReg => exact row_of_selects (selects_of_nibble (v := 0x8003) 0x8 0x3 rfl rfl decodeWord_xorReg) h
  | addReg => exact row_of_selects (selects_of_nibble (v := 0x8004) 0x8 0x4 rfl rfl decodeWord_addReg) h
  | subReg => exact row_of_selects (selects_of_nibble (v := 0x8005) 0x8 0x5 rfl rfl decodeWord_subReg) h
  | shr => exact row_of_selects (selects_of_nibble (v := 0x8006) 0x8 0x6 rfl rfl decodeWord_shr) h
  | subnReg => exact row_of_selects (selects_of_nibble (v := 0x8007) 0x8 0x7 rfl rfl decodeWord_subnReg) h
  | shl => exact row_of_selects (selects_of_nibble (v := 0x800E) 0x8 0xE rfl rfl decodeWord_shl) h
  | sneReg => exact row_of_selects (selects_of_family (v := 0x9000) 0x9 rfl decodeWord_sneReg) h
  | ldI => exact row_of_selects (selects_of_family (v := 0xA000) 0xA rfl decodeWord_ldI) h
  | jpV0 => exact row_of_selects (selects_of_family (v := 0xB000) 0xB rfl decodeWord_jpV0) h
  | rnd => exact row_of_selects (selects_of_family (v := 0xC000) 0xC rfl decodeWord_rnd) h
  | drw => exact row_of_selects (selects_of_family (v := 0xD000) 0xD rfl decodeWord_drw) h
  | skp => exact row_of_selects (selects_of_nibble (v := 0xE00E) 0xE 0xE rfl rfl decodeWord_skp) h
  | sknp => exact row_of_selects (selects_of_nibble (v := 0xE001) 0xE 0x1 rfl rfl decodeWord_sknp) h
  | ldVxDt => exact row_of_selects (selects_of_byte (v := 0xF007) 0xF 0x07 rfl rfl decodeWord_ldVxDt) h
  | ldVxK => exact row_of_selects (selects_of_byte (v := 0xF00A) 0xF 0x0A rfl rfl decodeWord_ldVxK) h
  | ldDtVx => exact row_of_selects (selects_of_byte (v := 0xF015) 0xF 0x15 rfl rfl decodeWord_ldDtVx) h
  | ldStVx => exact row_of_selects (selects_of_byte (v := 0xF018) 0xF 0x18 rfl rfl decodeWord_ldStVx) h
  | addI => exact row_of_selects (selects_of_byte (v := 0xF01E) 0xF 0x1E rfl rfl decodeWord_addI) h
  | ldF => exact row_of_selects (selects_of_byte (v := 0xF029) 0xF 0x29 rfl rfl decodeWord_ldF) h
  | ldB => exact row_of_selects (selects_of_byte (v := 0xF033) 0xF 0x33 rfl rfl decodeWord_ldB) h
  | storeRegs => exact row_of_selects (selects_of_byte (v := 0xF055) 0xF 0x55 rfl rfl decodeWord_storeRegs) h
  | loadRegs => exact row_of_selects (selects_of_byte (v := 0xF065) 0xF 0x65 rfl rfl decodeWord_loadRegs) h
  | nop w => exact absurd rfl hi

/-- Settles O5: the row of a decoded word is the row its fields were selected by. -/
theorem everyWordMatchesExactlyItsRow : Obligations.EveryWordMatchesExactlyItsRow := by
  unfold Obligations.EveryWordMatchesExactlyItsRow
  exact fun w => ⟨and_rowMask_decodeWord w, fun _ => row_decodeWord_of_match⟩

/-! ## Words of the spec -/

/-- Settles O2: the twelve words are literals, and the decoder computes. -/
theorem specWordsDecode : Obligations.SpecWordsDecode := by
  unfold Obligations.SpecWordsDecode
  decide

end Sys2Proof
end

section
/-! The invariant of a machine: what an instruction leaves of memory, SP and the fault latch, and the statements that every
step and the host's writes keep it and that reset meets it. -/

namespace Sys2Proof.Machine

/-! ## The invariant part by part -/

/-- A latch as the load leaves it records that there was no fault (10_state.md R49). -/
theorem State.latchRecords_of_clear {s : State} (hf : s.fault = .none) (hpc : s.faultPc = 0) (hw : s.faultWord = 0) :
    s.latchRecords := by
  refine ⟨fun _ => ⟨hpc, hw⟩, fun h => absurd hf h, fun h => ?_, fun h => ?_⟩ <;> exact nomatch hf.symm.trans h

/-- The invariant speaks of memory, PC, SP and the latch alone. -/
theorem State.inv_of_same {s t : State} (h : s.Inv) (hm : t.mem = s.mem) (hp : t.pc = s.pc) (hsp : t.sp = s.sp)
    (hf : t.fault = s.fault) (hfp : t.faultPc = s.faultPc) (hfw : t.faultWord = s.faultWord) : t.Inv := by
  simp only [State.Inv, State.latchRecords, State.fetchWord_eq hm hp, hm, hp, hsp, hf, hfp, hfw]
  exact h

/-! ## What an instruction leaves of the parts -/

/-- Every instruction keeps memory in its canonical form. -/
theorem exec_next_wf {i : Instr} {s t : State} (h : exec i s = .next t) (hm : Memory.wf s.mem = true) :
    Memory.wf t.mem = true := by
  rcases exec_next_cases h with ht | ht | ht | ht | ⟨-, hwf⟩ | ht | ⟨ht, -⟩ | ⟨-, ht, -⟩ | ⟨-, ht, -⟩
  iterate 4 rw [ht]; exact hm
  · exact hwf hm
  all_goals rw [ht]; exact hm

/-- Every instruction leaves SP at most 16: a push needs a free entry, and a pop lowers SP (10_state.md R40). -/
theorem exec_next_sp_le {i : Instr} {s t : State} (h : exec i s = .next t) (hsp : s.sp.toNat ≤ 16) :
    t.sp.toNat ≤ 16 := by
  rcases exec_next_cases h with ht | ht | ht | ht | ⟨ht, -⟩ | ht | ⟨-, hle⟩ | ⟨-, ht, -⟩ | ⟨-, ht, -⟩
  iterate 6 rw [ht]; exact hsp
  · exact hle
  all_goals rw [ht]; exact hsp

/-- An instruction that raises no fault leaves the whole latch. -/
theorem exec_next_latch {i : Instr} {s t : State} (h : exec i s = .next t) (ht : t.fault = .none) :
    t.faultPc = s.faultPc ∧ t.faultWord = s.faultWord := by
  rcases exec_next_cases h with he | he | he | he | ⟨he, -⟩ | he | ⟨he, -⟩ | ⟨-, he, -⟩ | ⟨-, he, -⟩
  iterate 7 rw [he]; exact ⟨rfl, rfl⟩
  all_goals rw [he] at ht; exact nomatch ht

/-! ## Every step -/

/-- A CALL or RET that raises a fault leaves a latch that records it: its PC and word are those of the cycle, and the
stack is full for a CALL and empty for a RET (60_exceptions.md R300 to R303). -/
theorem latchRecords_of_raise {s u : State} (hs : s.fault = .none)
    (h : exec (decodeWord s.fetchWord) s.advancePc = .next u) (hu : u.fault ≠ .none) : u.latchRecords := by
  obtain hsame | ⟨h16, hraise, nnn, hd⟩ | ⟨h0, hraise, ign, hd⟩ := exec_next_fault h
  · exact absurd (hsame.trans hs) hu
  all_goals
    rw [State.raise_advancePc, encode_decodeWord] at hraise
    subst hraise
  · have hcall : s.fetchWord &&& 0xF000 = 0x2000 := and_rowMask_of_decodeWord hd (Laws.EncodesRow.call nnn)
    exact ⟨nofun, fun _ => ⟨rfl, rfl⟩, fun _ => ⟨h16, family_of_match_F000 hcall⟩, nofun⟩
  · have hret : s.fetchWord &&& 0xF00F = 0x000E := and_rowMask_of_decodeWord hd (Laws.EncodesRow.ret ign)
    obtain ⟨hfam, hlow⟩ := fields_of_match_F00F hret
    exact ⟨nofun, fun _ => ⟨rfl, rfl⟩, nofun, fun _ => ⟨h0, hfam, hlow⟩⟩

/-- The invariant after an instruction on the state after the fetch. The state after the fetch need not meet it, but its
memory, SP and latch are those of the state before. -/
theorem inv_of_exec {s u : State} (hinv : s.Inv) (hs : s.fault = .none)
    (h : exec (decodeWord s.fetchWord) s.advancePc = .next u) : u.Inv := by
  obtain ⟨hmem, hsp, hlatch⟩ := hinv
  refine ⟨exec_next_wf h hmem, exec_next_sp_le h hsp, ?_⟩
  by_cases hu : u.fault = .none
  · obtain ⟨hpc, hword⟩ := exec_next_latch h hu
    obtain ⟨hclear, -⟩ := hlatch
    obtain ⟨hpc0, hword0⟩ := hclear hs
    exact State.latchRecords_of_clear hu (hpc.trans hpc0) (hword.trans hword0)
  · exact latchRecords_of_raise hs h hu

/-- The end of a cycle changes the timers, of which the invariant does not speak. -/
theorem State.finishCycle_inv {s : State} (h : s.Inv) : s.finishCycle.Inv := by
  rw [State.finishCycle_keeps]
  exact State.inv_of_same h rfl rfl rfl rfl rfl rfl

/-- Settles O13: a latched fault leaves the state as it is, and otherwise the invariant holds after the instruction and
so after the tick. -/
theorem everyStepKeepsTheInvariant : Obligations.EveryStepKeepsTheInvariant := by
  unfold Obligations.EveryStepKeepsTheInvariant
  intro s t hinv h
  obtain ⟨-, rfl⟩ | ⟨hs, u, hu, rfl⟩ := step_next_iff.1 h
  · exact hinv
  · exact State.finishCycle_inv (inv_of_exec hinv hs hu)

/-- With SP 0 to 16 a step answers a next state: either it stands still or its instruction answers. -/
theorem step_next_of_sp_le {s : State} (hsp : s.sp.toNat ≤ 16) : ∃ t, step s = .next t := by
  by_cases hs : s.fault = .none
  · obtain ⟨u, hu⟩ := exec_next_of_sp_le (s := s.advancePc) (decodeWord s.fetchWord) hsp
    exact ⟨_, step_of_exec hs hu⟩
  · exact ⟨s, step_of_faulted hs⟩

/-- Settles O15: the invariant bounds SP, so the step answers, and the step keeps the invariant. -/
theorem everyCycleCompletes : Obligations.EveryCycleCompletes := by
  unfold Obligations.EveryCycleCompletes
  intro s hinv
  have ⟨_, hsp, _⟩ := hinv
  obtain ⟨t, ht⟩ := step_next_of_sp_le hsp
  exact ⟨t, ht, everyStepKeepsTheInvariant s t hinv ht⟩

/-! ## Reset and the host's writes -/

/-- Settles O14: reset memory lists no cell, the stack is empty and the latch is clear. -/
theorem resetMeetsTheInvariant : Obligations.ResetMeetsTheInvariant := by
  unfold Obligations.ResetMeetsTheInvariant
  exact ⟨Memory.wf_nil, Nat.zero_le 16, State.latchRecords_of_clear rfl rfl rfl⟩

theorem unchangedBut_writeKey (s : State) (k : Key) (held : Bool) : UnchangedBut [.keys] s (s.writeKey k held) := by
  apply unchangedBut_of_fields <;> simp

/-- A loaded machine meets the invariant: storing the image keeps the canonical form and changes nothing else. -/
theorem State.load_inv {bytes : List Byte} {m : State} (h : State.load bytes = .ok m) : m.Inv := by
  obtain ⟨-, rfl⟩ := State.load_ok_iff.1 h
  have hwf := State.wf_storeBytes (s := State.reset) Config.programOrigin bytes Memory.wf_nil
  rw [State.storeBytes_eq]
  exact ⟨hwf, Nat.zero_le 16, State.latchRecords_of_clear rfl rfl rfl⟩

/-- Settles O16: the invariant does not speak of the keys, and a load stores its image into the reset machine. -/
theorem hostWritesKeepTheInvariant : Obligations.HostWritesKeepTheInvariant := by
  unfold Obligations.HostWritesKeepTheInvariant
  exact ⟨fun s k held => ⟨fun j => s.key_writeKey k j held, unchangedBut_writeKey s k held,
    fun hinv => State.inv_of_same hinv rfl rfl rfl rfl rfl rfl⟩, fun _ _ => State.load_inv⟩

end Sys2Proof.Machine
end

section
/-! The cycle (70_reset_and_hazards.md): the fetch, what each instruction writes, how PC ends, and which registers
change. -/

namespace Sys2Proof

/-! ## The parts an instruction writes -/

/-- The parts of the state that an instruction may write, CALL and RET writing the latch where they fault. -/
def Instr.writes : Instr → List Machine.Part
  | .cls _ => [.display]
  | .ret _ | .call _ => [.pc, .stack, .latch]
  | .jp _ | .jpV0 _ | .seImm _ _ | .sneImm _ _ | .seReg _ _ _ | .sneReg _ _ _ | .skp _ _ | .sknp _ _ => [.pc]
  | .ldImm _ _ | .addImm _ _ | .ldReg _ _ | .orReg _ _ | .andReg _ _ | .xorReg _ _ => [.regs]
  | .addReg _ _ | .subReg _ _ | .shr _ _ | .subnReg _ _ | .shl _ _ | .ldVxDt _ | .loadRegs _ => [.regs]
  | .ldI _ | .addI _ | .ldF _ => [.index]
  | .rnd _ _ => [.regs, .draws]
  | .drw _ _ _ => [.regs, .display]
  | .ldVxK _ => [.regs, .pc]
  | .ldDtVx _ => [.delayTimer]
  | .ldStVx _ => [.soundTimer]
  | .ldB _ | .storeRegs _ => [.memory]
  | .nop _ => []

end Sys2Proof

namespace Sys2Proof.Machine

/-! ## Fetch (20_memory.md R75 to R77) -/

theorem State.fetchWord_toNat (s : State) :
    s.fetchWord.toNat = 256 * (s.memRead s.pc.toNat).toNat + (s.memRead (s.pc.toNat + 1)).toNat := by
  rw [State.fetchWord, wordOfBytes_toNat, Nat.mul_comm]

/-- A 16-bit table word is the word itself (log 8). -/
theorem tableWord_toNat (w : Word) : tableWord 16 w.toNat = w := by
  rw [tableWord, Nat.mod_eq_of_lt w.isLt, BitVec.ofNat_toNat, BitVec.setWidth_eq]

/-- A word stored at PC and PC + 1 is fetched: the two addresses differ modulo 4096. -/
theorem State.fetchWord_memWrite_memWrite (s : State) (w : Word) :
    ((s.memWrite s.pc.toNat (highByte w)).memWrite (s.pc.toNat + 1) (lowByte w)).fetchWord = w := by
  have hne : s.pc.toNat % 4096 ≠ (s.pc.toNat + 1) % 4096 := by omega
  simp only [State.fetchWord, State.memWrite_pc, State.memRead_memWrite, hne, if_false, if_true, wordOfBytes_high_low]

theorem State.placeWord_of_no_fault {s : State} (w : Word) (h : s.fault = .none) :
    s.placeWord w = (s.memWrite s.pc.toNat (highByte w)).memWrite (s.pc.toNat + 1) (lowByte w) := by
  rw [State.placeWord, if_pos h]

theorem State.placeWord_of_fault {s : State} (w : Word) (h : s.fault ≠ .none) :
    s.placeWord w = (s.clearLatch.memWrite s.pc.toNat (highByte w)).memWrite (s.pc.toNat + 1) (lowByte w) := by
  rw [State.placeWord, if_neg h]

/-- The word placed is the word fetched, with no fault latched, whether one was latched before or not (log 2). -/
theorem State.placeWord_fetchWord (s : State) (w : Word) :
    (s.placeWord w).fetchWord = w ∧ (s.placeWord w).fault = .none := by
  by_cases h : s.fault = .none
  · rw [State.placeWord_of_no_fault w h]
    exact ⟨s.fetchWord_memWrite_memWrite w, h⟩
  · rw [State.placeWord_of_fault w h]
    exact ⟨s.clearLatch.fetchWord_memWrite_memWrite w, rfl⟩

/-- Settles O8: a word is its two bytes, high byte first, and the bytes placed are those that the fetch reads. -/
theorem fetchReadsTwoBytesHighFirst : Obligations.FetchReadsTwoBytesHighFirst := by
  unfold Obligations.FetchReadsTwoBytesHighFirst
  refine ⟨fun s => ?fetch, fun s w => ?place⟩
  case fetch => rw [State.memRead_mod, State.memRead_mod, State.fetchWord_toNat]
  case place =>
    rw [State.withFetchWord, tableWord_toNat]
    obtain ⟨hfetch, hfault⟩ := s.placeWord_fetchWord w
    refine ⟨hfetch, hfault, fun h => ?_⟩
    rw [State.placeWord_of_no_fault w h]
    exact unchangedBut_of_eq_with_mem rfl

/-! ## The cycle as a whole -/

/-- Settles O7: the decoder reads the word fetched, and the end of the cycle is the tick unless a fault is latched. -/
theorem stepRunsTheDecodedInstruction : Obligations.StepRunsTheDecodedInstruction := by
  unfold Obligations.StepRunsTheDecodedInstruction
  intro s i hs hd
  obtain rfl : decodeWord s.fetchWord = i := congrArg Prod.fst (Except.ok.inj hd)
  have hadvance : { s with pc := s.pc + 2 } = s.advancePc := rfl
  rw [step, if_pos hs, hadvance]
  cases exec (decodeWord s.fetchWord) s.advancePc <;> rfl

/-- Settles O21: with SP above 16 no entry is free to push and none is in use to pop (log 5). -/
theorem stackPointerOutOfRangeStops : Obligations.StackPointerOutOfRangeStops := by
  unfold Obligations.StackPointerOutOfRangeStops
  intro s nnn ign hsp
  have h16 : s.sp ≠ 16 := fun h => by simp [h] at hsp
  have h0 : s.sp ≠ 0 := fun h => by simp [h] at hsp
  constructor
  · change execCall nnn s = _
    rw [execCall, if_neg h16, State.push_eq_none s _ (by omega)]
  · change execRet ign s = _
    rw [execRet, if_neg h0, State.pop_eq_none s h0 (by omega)]

/-- The tick changes the timers alone. -/
theorem unchangedBut_tick (s : State) : UnchangedBut [.delayTimer, .soundTimer] s s.tick := by
  apply unchangedBut_of_fields <;> simp

/-- A cycle whose instruction sets PC back to its own address changes the timers alone: it ends in the tick of the
state it started with. -/
theorem step_of_setPc_self {s : State} {a : Word} (hs : s.fault = .none)
    (h : exec (decodeWord s.fetchWord) s.advancePc = .next (s.advancePc.setPc a)) (ha : a = s.pc) :
    step s = .next s.tick := by
  have hsame : s.advancePc.setPc a = s := by rw [ha]; rfl
  rw [hsame] at h
  exact (step_of_exec hs h).trans (congrArg _ (State.finishCycle_of_no_fault hs))

/-- Settles O22: a parked machine's instruction is a jump to its own address, so the cycle is its tick. -/
theorem parkedMachineOnlyCountsDown : Obligations.ParkedMachineOnlyCountsDown := by
  unfold Obligations.ParkedMachineOnlyCountsDown
  intro s hparked
  have ⟨hs, hfam, haddr⟩ := hparked
  have hexec := exec_jp (fieldNNN s.fetchWord) s.advancePc
  rw [← decodeWord_jp hfam] at hexec
  have hself : zextAddr (fieldNNN s.fetchWord) = s.pc := BitVec.eq_of_toNat_eq ((zextAddr_toNat _).trans haddr)
  exact ⟨s.tick, step_of_setPc_self hs hexec hself, hparked, unchangedBut_tick s, countDown_toNat s.dt,
    countDown_toNat s.st⟩

theorem selects_ldVxK : Selects 0xF0FF 0xF00A (fun w => .ldVxK (fieldX w)) :=
  selects_of_byte 0xF 0x0A rfl rfl decodeWord_ldVxK

/-- Settles O47: with no key held the wait goes back to its own address, so the cycle is its tick. -/
theorem keyWaitRepeatsWithoutAKey : Obligations.KeyWaitRepeatsWithoutAKey := by
  unfold Obligations.KeyWaitRepeatsWithoutAKey
  intro s hs hw hkeys
  have hexec := exec_ldVxK_of_no_key (s := s.advancePc) (fieldX s.fetchWord) hkeys
  have hdecode : decodeWord s.fetchWord = .ldVxK (fieldX s.fetchWord) := selects_ldVxK s.fetchWord hw
  rw [← hdecode] at hexec
  exact ⟨s.tick, step_of_setPc_self hs hexec (BitVec.add_sub_cancel s.pc 2), countDown_toNat s.dt,
    countDown_toNat s.st, unchangedBut_tick s, State.fetchWord_eq s.tick_mem s.tick_pc⟩

/-! ## What each instruction writes -/

theorem Part.same_refl (p : Part) (s : State) : p.same s s := by
  cases p <;> simp [Part.same]

theorem Part.same_trans {p : Part} {s t u : State} (h : p.same s t) (h' : p.same t u) : p.same s u := by
  cases p with
  | regs | memory | keys => exact fun a => (h' a).trans (h a)
  | display => exact fun px py => (h' px py).trans (h px py)
  | stack =>
    obtain ⟨hsp, hstack⟩ := h
    obtain ⟨hsp', hstack'⟩ := h'
    exact ⟨hsp'.trans hsp, fun j => (hstack' j).trans (hstack j)⟩
  | latch =>
    obtain ⟨hfault, hpc, hword⟩ := h
    obtain ⟨hfault', hpc', hword'⟩ := h'
    exact ⟨hfault'.trans hfault, hpc'.trans hpc, hword'.trans hword⟩
  | pc | index | delayTimer | soundTimer | draws => exact Eq.trans h' h

theorem UnchangedBut.mono {L M : List Part} {s t : State} (h : UnchangedBut L s t) (hLM : L ⊆ M) :
    UnchangedBut M s t :=
  fun p hp => h p fun hL => hp (hLM hL)

theorem UnchangedBut.trans {L : List Part} {s t u : State} (h : UnchangedBut L s t) (h' : UnchangedBut L t u) :
    UnchangedBut L s u :=
  fun p hp => Part.same_trans (h p hp) (h' p hp)

theorem unchangedBut_setReg_nextDraw (s : State) (r : Reg) (b : Byte) :
    UnchangedBut [.regs, .draws] s (s.setReg r b).nextDraw := by
  apply unchangedBut_of_fields <;> simp

/-- What LD Vx, K answers: PC back at its own address with no key held, and otherwise V[x] with a held key (R245). -/
theorem exec_ldVxK_next_cases {x : Reg} {s t : State} (h : exec (.ldVxK x) s = .next t) :
    ((∀ k, s.key k = false) ∧ t = s.setPc (s.pc - 2)) ∨
    (∃ k, s.key k = true ∧ t = s.setReg x (BitVec.ofNat 8 k.val)) := by
  cases hk : s.lowestKey with
  | none =>
    have hnone := s.lowestKey_eq_none.1 hk
    exact .inl ⟨hnone, Host.Outcome.next.inj (h.symm.trans (exec_ldVxK_of_no_key x hnone))⟩
  | some k =>
    obtain ⟨hheld, hlow⟩ := s.lowestKey_eq_some.1 hk
    exact .inr ⟨k, hheld, Host.Outcome.next.inj (h.symm.trans (exec_ldVxK_of_lowest x hheld hlow))⟩

/-- The frame of every instruction: what it does not write is as before. -/
theorem exec_next_frame {i : Instr} {s t : State} (h : exec i s = .next t) : UnchangedBut i.writes s t := by
  cases i with
  | call nnn =>
    obtain ⟨-, rfl⟩ | ⟨hlt, rfl⟩ := execCall_next_iff.1 h
    · exact (unchangedBut_raise s _ _).mono (by simp [Instr.writes])
    · exact (unchangedBut_stack_pc s _ _ _).mono (by simp [Instr.writes])
  | ret ign =>
    obtain ⟨-, rfl⟩ | ⟨-, -, rfl⟩ := execRet_next_iff.1 h
    · exact (unchangedBut_raise s _ _).mono (by simp [Instr.writes])
    · exact (unchangedBut_stack_pc s s.stack _ _).mono (by simp [Instr.writes])
  | ldVxK x =>
    obtain ⟨-, rfl⟩ | ⟨k, -, rfl⟩ := exec_ldVxK_next_cases h
    · exact (unchangedBut_setPc s _).mono (by simp [Instr.writes])
    · exact (unchangedBut_setReg s _ _).mono (by simp [Instr.writes])
  | jp nnn | jpV0 nnn =>
    obtain rfl := Host.Outcome.next.inj h
    exact unchangedBut_setPc s _
  | seImm x kk | sneImm x kk | seReg x y ign | sneReg x y ign | skp x ign | sknp x ign =>
    obtain rfl := Host.Outcome.next.inj h
    exact unchangedBut_skipIf s _
  | ldImm x kk | addImm x kk | ldReg x y | orReg x y | andReg x y | xorReg x y | ldVxDt x =>
    obtain rfl := Host.Outcome.next.inj h
    exact unchangedBut_setReg s _ _
  | addReg x y | subReg x y | shr x ign | subnReg x y | shl x ign =>
    obtain rfl := Host.Outcome.next.inj h
    exact unchangedBut_setRegThenFlag s _ _ _
  | loadRegs x =>
    obtain rfl := Host.Outcome.next.inj h
    exact unchangedBut_of_eq_with_v (s.loadFirst_eq _)
  | rnd x kk =>
    obtain rfl := Host.Outcome.next.inj h
    exact unchangedBut_setReg_nextDraw s _ _
  | ldI nnn | addI x | ldF x =>
    obtain rfl := Host.Outcome.next.inj h
    exact unchangedBut_setI s _
  | ldB x =>
    obtain rfl := Host.Outcome.next.inj h
    exact unchangedBut_of_eq_with_mem rfl
  | storeRegs x =>
    obtain rfl := Host.Outcome.next.inj h
    exact unchangedBut_of_eq_with_mem (s.storeFirst_eq _)
  | cls ign =>
    obtain rfl := Host.Outcome.next.inj h
    exact unchangedBut_setFrame s _
  | drw x y n =>
    obtain rfl := Host.Outcome.next.inj h
    exact unchangedBut_setFrame_setReg s _ _ _
  | ldDtVx x =>
    obtain rfl := Host.Outcome.next.inj h
    exact unchangedBut_setDt s _
  | ldStVx x =>
    obtain rfl := Host.Outcome.next.inj h
    exact unchangedBut_setSt s _
  | nop w =>
    obtain rfl := Host.Outcome.next.inj h
    exact fun p _ => p.same_refl s

theorem unchangedBut_advancePc (s : State) : UnchangedBut [.pc] s s.advancePc := unchangedBut_setPc s _

theorem unchangedBut_finishCycle (s : State) : UnchangedBut [.delayTimer, .soundTimer] s s.finishCycle := by
  rw [State.finishCycle_keeps]
  apply unchangedBut_of_fields <;> simp

/-- The frame of every cycle: PC, the timers, and what the instruction of the word fetched writes. -/
theorem step_next_frame {s t : State} (h : step s = .next t) :
    UnchangedBut (.pc :: .delayTimer :: .soundTimer :: (decodeWord s.fetchWord).writes) s t := by
  obtain ⟨-, rfl⟩ | ⟨-, u, hu, rfl⟩ := step_next_iff.1 h
  · exact fun p _ => p.same_refl _
  · refine .trans (t := u) (.trans (t := s.advancePc) ?fetch ?instruction) ?finish
    case fetch => exact (unchangedBut_advancePc s).mono (by simp)
    case instruction =>
      exact (exec_next_frame hu).mono (List.subset_append_right [Part.pc, .delayTimer, .soundTimer] _)
    case finish => exact (unchangedBut_finishCycle u).mono (by simp)

/-- A part that neither the cycle nor its instruction writes is as before. -/
theorem step_next_same {p : Part} {s t : State} (h : step s = .next t)
    (hcycle : p ∉ ([.pc, .delayTimer, .soundTimer] : List Part)) (hinstr : p ∉ (decodeWord s.fetchWord).writes) :
    p.same s t :=
  step_next_frame h p (by simp_all)

/-! ## Which rows write a part -/

section
variable {i : Instr} {w : Word}

theorem match_of_writes_memory (hrow : w &&& i.rowMask = i.rowMatch) (h : .memory ∈ i.writes) :
    w &&& 0xF0FF = 0xF033 ∨ w &&& 0xF0FF = 0xF055 := by
  cases i with
  | ldB x => exact .inl hrow
  | storeRegs x => exact .inr hrow
  | _ => simp [Instr.writes] at h

theorem match_of_writes_stack (hrow : w &&& i.rowMask = i.rowMatch) (h : .stack ∈ i.writes) :
    w &&& 0xF000 = 0x2000 ∨ w &&& 0xF00F = 0x000E := by
  cases i with
  | call nnn => exact .inl hrow
  | ret ign => exact .inr hrow
  | _ => simp [Instr.writes] at h

theorem match_of_writes_display (hrow : w &&& i.rowMask = i.rowMatch) (h : .display ∈ i.writes) :
    w &&& 0xF00F = 0x0000 ∨ w &&& 0xF000 = 0xD000 := by
  cases i with
  | cls ign => exact .inl hrow
  | drw x y n => exact .inr hrow
  | _ => simp [Instr.writes] at h

theorem match_of_writes_index (hrow : w &&& i.rowMask = i.rowMatch) (h : .index ∈ i.writes) :
    w &&& 0xF000 = 0xA000 ∨ w &&& 0xF0FF = 0xF01E ∨ w &&& 0xF0FF = 0xF029 := by
  cases i with
  | ldI nnn => exact .inl hrow
  | addI x => exact .inr (.inl hrow)
  | ldF x => exact .inr (.inr hrow)
  | _ => simp [Instr.writes] at h

theorem match_of_writes_draws (hrow : w &&& i.rowMask = i.rowMatch) (h : .draws ∈ i.writes) :
    w &&& 0xF000 = 0xC000 := by
  cases i with
  | rnd x kk => exact hrow
  | _ => simp [Instr.writes] at h

theorem keys_notMem_writes (i : Instr) : .keys ∉ i.writes := by
  cases i <;> simp [Instr.writes]

end

/-- Settles O11: a cycle changes a part only if its instruction writes it, and then the word matches that instruction's
row. -/
theorem onlyTheNamedInstructionsWriteEachPart : Obligations.OnlyTheNamedInstructionsWriteEachPart := by
  unfold Obligations.OnlyTheNamedInstructionsWriteEachPart
  intro s t h
  have hrow := and_rowMask_decodeWord s.fetchWord
  refine ⟨fun h33 h55 => ?memory, fun h2 hE => ?stack, fun h0 hD => ?display, fun hA h1E h29 => ?index,
    fun hC => ?draws, ?keys⟩
  case memory => exact step_next_same h (by decide) fun hw => (match_of_writes_memory hrow hw).elim h33 h55
  case stack => exact step_next_same h (by decide) fun hw => (match_of_writes_stack hrow hw).elim h2 hE
  case display => exact step_next_same h (by decide) fun hw => (match_of_writes_display hrow hw).elim h0 hD
  case index =>
    exact step_next_same h (by decide) fun hw => (match_of_writes_index hrow hw).elim hA (Or.rec h1E h29)
  case draws => exact step_next_same h (by decide) fun hw => hC (match_of_writes_draws hrow hw)
  case keys => exact step_next_same h (by decide) (keys_notMem_writes _)

end Sys2Proof.Machine

namespace Sys2Proof

/-! ## Which registers change (10_state.md R33, R38) -/

/-- The registers that an instruction may change: its destination, VF for one that writes a flag, and V0 to V[x] for a
block load. -/
def Instr.writesReg (r : Reg) : Instr → Prop
  | .ldImm x _ | .addImm x _ | .ldReg x _ | .orReg x _ | .andReg x _ | .xorReg x _ => r = x
  | .rnd x _ | .ldVxDt x | .ldVxK x => r = x
  | .addReg x _ | .subReg x _ | .shr x _ | .subnReg x _ | .shl x _ => r = 15 ∨ r = x
  | .drw _ _ _ => r = 15
  | .loadRegs x => r ≤ x
  | _ => False

/-- The registers that R33 and R38 name for a word: its destination V[x], V0 to V[x] of a block load, or the flag. -/
def NamesReg (w : Word) (r : Reg) : Prop :=
  (r = fieldX w ∧ (fieldFamily w = 0x6 ∨ fieldFamily w = 0x7 ∨ fieldFamily w = 0x8 ∨ fieldFamily w = 0xC ∨
    w &&& 0xF0FF = 0xF007 ∨ w &&& 0xF0FF = 0xF00A)) ∨
  (r ≤ fieldX w ∧ w &&& 0xF0FF = 0xF065) ∨
  (r = 15 ∧ (fieldFamily w = 0xD ∨
    (fieldFamily w = 0x8 ∧ fieldN w ∈ ([0x4, 0x5, 0x6, 0x7, 0xE] : List Nibble))))

/-- A register that an instruction may change is one that its word names. -/
theorem namesReg_encode {i : Instr} {r : Reg} (h : i.writesReg r) : NamesReg (encode i) r := by
  cases i with
  | ldImm x kk | addImm x kk | rnd x kk => exact .inl ⟨Eq.trans h (fieldX_formXK _ x kk).symm, by simp [encode]⟩
  | ldReg x y | orReg x y | andReg x y | xorReg x y =>
    exact .inl ⟨Eq.trans h (fieldX_formXYN _ x y _).symm, by simp [encode]⟩
  | addReg x y | subReg x y | shr x ign | subnReg x y | shl x ign =>
    obtain h15 | hx := h
    · exact .inr (.inr ⟨h15, .inr (by simp [encode])⟩)
    · exact .inl ⟨by simpa [encode] using hx, by simp [encode]⟩
  | ldVxDt x =>
    exact .inl ⟨Eq.trans h (fieldX_formXK _ x _).symm, .inr (.inr (.inr (.inr (.inl (Laws.EncodesRow.ldVxDt x)))))⟩
  | ldVxK x =>
    exact .inl ⟨Eq.trans h (fieldX_formXK _ x _).symm, .inr (.inr (.inr (.inr (.inr (Laws.EncodesRow.ldVxK x)))))⟩
  | loadRegs x => exact .inr (.inl ⟨le_of_le_of_eq h (fieldX_formXK _ x _).symm, Laws.EncodesRow.loadRegs x⟩)
  | drw x y n => exact .inr (.inr ⟨h, .inl (by simp [encode])⟩)
  | _ => exact h.elim

end Sys2Proof

namespace Sys2Proof.Machine

theorem State.eq_of_reg_setReg_ne {s : State} {x r : Reg} {b : Byte} (h : (s.setReg x b).reg r ≠ s.reg r) : r = x :=
  by_contra fun hr => h (s.reg_setReg_ne b hr)

theorem State.eq_of_reg_setRegThenFlag_ne {s : State} {x r : Reg} {b f : Byte}
    (h : (s.setRegThenFlag x b f).reg r ≠ s.reg r) : r = 15 ∨ r = x := by
  by_contra hr
  obtain ⟨h15, hx⟩ := not_or.1 hr
  rw [State.reg_setRegThenFlag, if_neg h15, if_neg hx] at h
  exact h rfl

/-- A register that differs after an instruction is one that the instruction may change. -/
theorem exec_next_writesReg {i : Instr} {s t : State} {r : Reg} (h : exec i s = .next t) (hr : t.reg r ≠ s.reg r) :
    i.writesReg r := by
  have hframe := exec_next_frame h
  cases i with
  | ldImm x kk | addImm x kk | ldReg x y | orReg x y | andReg x y | xorReg x y | ldVxDt x | rnd x kk =>
    obtain rfl := Host.Outcome.next.inj h
    exact State.eq_of_reg_setReg_ne hr
  | addReg x y | subReg x y | shr x ign | subnReg x y | shl x ign =>
    obtain rfl := Host.Outcome.next.inj h
    exact State.eq_of_reg_setRegThenFlag_ne hr
  | drw x y n =>
    obtain rfl := Host.Outcome.next.inj h
    exact State.eq_of_reg_setReg_ne (s := s.setFrame _) hr
  | loadRegs x =>
    obtain rfl := Host.Outcome.next.inj h
    by_contra hx
    exact hr ((s.reg_loadFirst _ x.isLt r).trans (if_neg fun hlt => hx (Nat.le_of_lt_succ hlt)))
  | ldVxK x =>
    obtain ⟨-, rfl⟩ | ⟨k, -, rfl⟩ := exec_ldVxK_next_cases h
    · exact absurd rfl hr
    · exact State.eq_of_reg_setReg_ne hr
  | _ => exact absurd (hframe .regs (by simp [Instr.writes]) r) hr

/-- Settles O12: a register that differs is one that the instruction may change, and so one that its word names. -/
theorem onlyNamedRegistersChange : Obligations.OnlyNamedRegistersChange := by
  unfold Obligations.OnlyNamedRegistersChange
  intro s t r h hr
  obtain ⟨-, rfl⟩ | ⟨-, u, hu, rfl⟩ := step_next_iff.1 h
  · exact absurd rfl hr
  have hend := unchangedBut_finishCycle u .regs (by decide) r
  have hnames := namesReg_encode (exec_next_writesReg hu (hend ▸ hr))
  rw [encode_decodeWord] at hnames
  exact hnames

end Sys2Proof.Machine
end

section
/-! How a cycle that does not fault leaves PC (10_state.md R36). -/

namespace Sys2Proof.Machine

/-! ## The state after the fetch -/

@[simp] theorem State.reg_advancePc (s : State) (r : Reg) : s.advancePc.reg r = s.reg r := rfl

@[simp] theorem State.key_advancePc (s : State) (k : Key) : s.advancePc.key k = s.key k := rfl

/-! ## The table -/

/-- PC after a cycle that does not fault, line by line as the table of R36 gives it from the word fetched. -/
def State.tablePc (s : State) : Word :=
  let w := s.fetchWord
  let f := fieldFamily w
  let vx := s.reg (fieldX w)
  let vy := s.reg (fieldY w)
  if f = 0x1 ∨ f = 0x2 then zextAddr (fieldNNN w)
  else if f = 0xB then zextAddr (fieldNNN w) + zextByte (s.reg 0)
  else if f = 0x0 ∧ fieldN w = 0xE then s.stackAt (Fin.ofNat 16 (s.sp.toNat - 1))
  else if (f = 0x3 ∧ vx = fieldKK w) ∨ (f = 0x4 ∧ vx ≠ fieldKK w) ∨ (f = 0x5 ∧ vx = vy) ∨ (f = 0x9 ∧ vx ≠ vy) ∨
      (f = 0xE ∧ fieldN w = 0xE ∧ s.key (keyOf vx) = true) ∨
      (f = 0xE ∧ fieldN w = 0x1 ∧ s.key (keyOf vx) = false) then s.pc + 4
  else if f = 0xF ∧ fieldKK w = 0x0A ∧ ∀ k, s.key k = false then s.pc
  else s.pc + 2

/-- The line of every NOP word is the last, PC + 2. -/
theorem State.tablePc_of_nop {s : State} (h : isNopWord s.fetchWord = true) : s.tablePc = s.pc + 2 := by
  obtain ⟨hf, -, hn⟩ | ⟨hf, -, -⟩ | ⟨hf, hn1, hnE⟩ | ⟨hf, hk⟩ := (isNopWord_iff _).1 h
  all_goals simp_all [State.tablePc]

/-- PC after the instruction of the word fetched, if it raises no fault, is the table's. -/
theorem exec_decodeWord_pc {s u : State} (h : exec (decodeWord s.fetchWord) s.advancePc = .next u)
    (hu : u.fault = .none) : u.pc = s.tablePc := by
  revert h
  apply decodeWord_cases s.fetchWord (fun i => exec i s.advancePc = .next u → u.pc = s.tablePc)
  case jp | jpV0 =>
    intro hf h
    obtain rfl := Host.Outcome.next.inj h
    simp [State.tablePc, hf]
  case call =>
    intro hf h
    obtain ⟨-, rfl⟩ | ⟨-, rfl⟩ := execCall_next_iff.1 h
    · exact nomatch hu
    · simp [State.tablePc, hf]
  case ret =>
    intro hf hn h
    obtain ⟨-, rfl⟩ | ⟨-, -, rfl⟩ := execRet_next_iff.1 h
    · exact nomatch hu
    · simp [State.tablePc, hf, hn, State.stackAt]
  case seImm | sneImm | seReg | sneReg =>
    intro hf h
    obtain rfl := Host.Outcome.next.inj h
    simp [State.tablePc, hf, State.skipIf_pc, BitVec.add_assoc]
  case skp | sknp =>
    intro hf hn h
    obtain rfl := Host.Outcome.next.inj h
    simp [State.tablePc, hf, hn, State.skipIf_pc, BitVec.add_assoc]
  case ldVxK =>
    intro hf hk h
    obtain ⟨hkeys, rfl⟩ | ⟨k, hheld, rfl⟩ := exec_ldVxK_next_cases h
    · have hnone : ∀ k, s.key k = false := hkeys
      simp [State.tablePc, hf, hk, hnone]
    · have hsome : ∃ k, s.key k = true := ⟨k, hheld⟩
      simp [State.tablePc, hf, hk, hsome]
  case nop =>
    intro hw h
    exact (exec_next_frame h .pc (by simp [Instr.writes])).trans (State.tablePc_of_nop hw).symm
  case ldImm | addImm | ldI | rnd | drw =>
    intro hf h
    exact (exec_next_frame h .pc (by simp [Instr.writes])).trans (by simp [State.tablePc, hf])
  all_goals
    intro hf hsel h
    exact (exec_next_frame h .pc (by simp [Instr.writes])).trans (by simp [State.tablePc, hf, hsel])

/-- Settles O9: PC after the cycle is PC after its instruction, which the fetch has started at A + 2. -/
theorem pcAfterEveryCycle : Obligations.PcAfterEveryCycle := by
  unfold Obligations.PcAfterEveryCycle
  intro s t hs h ht
  obtain ⟨hlatched, -⟩ | ⟨-, u, hu, rfl⟩ := step_next_iff.1 h
  · exact absurd hs hlatched
  have hend := unchangedBut_finishCycle u .pc (by decide)
  exact hend.trans (exec_decodeWord_pc hu (u.finishCycle_fault ▸ ht))

end Sys2Proof.Machine
end

section
/-! Statements that an instruction's own lemmas give: the block store undone by the block load, the random byte, and the
sprite drawn twice. -/

namespace Sys2Proof.Machine

/-- Settles O41: the load reads each of V0 to V[x] at the address where the store put it. -/
theorem blockStoreThenLoadRestores : Obligations.BlockStoreThenLoadRestores := by
  unfold Obligations.BlockStoreThenLoadRestores
  intro x s t u hstore hi hmem
  obtain rfl := Host.Outcome.next.inj hstore
  refine ⟨_, exec_loadRegs x u, fun j hj => ?_⟩
  have hlt : j.val < x.val + 1 := Nat.lt_succ_of_le hj
  obtain ⟨hstored, -⟩ := s.memRead_storeFirst _ x.isLt (s.i.toNat + j.val)
  calc (u.loadFirst (x.val + 1)).reg j
      _ = u.memRead (u.i.toNat + j.val) := (u.reg_loadFirst _ x.isLt j).trans (if_pos hlt)
      _ = (s.storeFirst (x.val + 1)).memRead (s.i.toNat + j.val) := by rw [hi, hmem]
      _ = s.reg j := hstored j hlt rfl

theorem exec_rnd (x : Reg) (kk : Byte) (s : State) :
    exec (.rnd x kk) s = .next (s.setReg x (kk &&& Config.randomByte s.draws)).nextDraw := rfl

theorem State.reg_nextDraw (s : State) (r : Reg) : s.nextDraw.reg r = s.reg r := rfl

/-- A masked byte has no bit outside its mask. -/
theorem and_and_not_self (kk b : Byte) : (kk &&& b) &&& ~~~kk = 0 := by
  rw [BitVec.and_comm kk b, BitVec.and_assoc, BitVec.and_not_self]
  exact BitVec.and_zero

/-- Settles O42: the byte written is kk masked with the free byte of the counter's draw, and the counter goes up. -/
theorem randomIsMaskedByTheImmediate : Obligations.RandomIsMaskedByTheImmediate := by
  unfold Obligations.RandomIsMaskedByTheImmediate
  refine ⟨selects_of_family 0xC rfl decodeWord_rnd, fun x kk s => ?_⟩
  have hx : (s.setReg x (kk &&& Config.randomByte s.draws)).nextDraw.reg x = kk &&& Config.randomByte s.draws :=
    State.reg_setReg_self s x _
  exact ⟨_, exec_rnd x kk s, hx, (congrArg (· &&& ~~~kk) hx).trans (and_and_not_self kk _),
    rfl, fun r hr => State.reg_setReg_ne s _ hr, unchangedBut_setReg_nextDraw s x _⟩

/-! ## Drawing twice (45_display.md R273) -/

/-- What a sprite covers depends on memory and I alone. -/
theorem State.spriteCovers_congr {s u : State} (hmem : ∀ a, u.memRead a = s.memRead a) (hi : u.i = s.i) (vx vy : Byte)
    (k : Nat) (px : Col) (py : Row) : u.SpriteCovers vx vy k px py ↔ s.SpriteCovers vx vy k px py := by
  simp only [State.SpriteCovers, hmem, hi]

/-- Where the pixels of a set are toggled and no others, one of the set is on afterwards exactly if some pixel was
turned on. -/
theorem turnedOn_iff_covered {s t : State} {covers : Col → Row → Prop}
    (hcov : ∀ px py, covers px py → t.pixel px py = !s.pixel px py)
    (huncov : ∀ px py, ¬ covers px py → t.pixel px py = s.pixel px py) :
    (∃ px py, covers px py ∧ t.pixel px py = true) ↔ ∃ px py, s.pixel px py = false ∧ t.pixel px py = true := by
  refine exists_congr fun px => exists_congr fun py => and_congr_left fun hon => ?_
  by_cases h : covers px py
  · exact iff_of_true h (by simpa [hon] using hcov px py h)
  · exact iff_of_false h (by simp [← huncov px py h, hon])

/-- Settles O49: both draws toggle the same pixels, so the second turns back what the first changed, and it meets an on
pixel exactly where the first met an off one. -/
theorem drawingTwiceRestoresTheFrame : Obligations.DrawingTwiceRestoresTheFrame := by
  unfold Obligations.DrawingTwiceRestoresTheFrame
  intro x y n s t u hdraw hfb hmem hi hx hy
  obtain ⟨-, hdrw⟩ := drawTogglesThePixelsCovered
  obtain ⟨t', ht, hcov, huncov, -⟩ := hdrw x y n s
  obtain rfl := Host.Outcome.next.inj (ht.symm.trans hdraw)
  obtain ⟨v, hv, hcov', huncov', hone, hzero, -⟩ := hdrw x y n u
  simp only [hx, hy, State.spriteCovers_congr hmem hi, hfb] at hcov' huncov' hone hzero
  refine ⟨v, hv, fun px py => ?frame, ?flag⟩
  case frame =>
    by_cases h : s.SpriteCovers (s.reg x) (s.reg y) n.toNat px py
    · rw [hcov' px py h, hcov px py h, Bool.not_not]
    · rw [huncov' px py h, huncov px py h]
  case flag =>
    have hon := turnedOn_iff_covered hcov huncov
    exact ⟨fun h => hon.1 (by_contra fun hno => by simp [hzero hno] at h), fun h => hone (hon.2 h)⟩

end Sys2Proof.Machine
end
